-- ==== Sys2Proof/Word.lean ====
section
/-! DEFINITION. The word types of the rdm6300 frame-decoder core: bytes, the 10-bit event word (30_encoding.md R60), the
decoder-unit request (R65) and the 14-byte frame (00_scope.md R7, 20_memory.md R41). -/

namespace Sys2Proof

/-- A byte: every datum of the block is an unsigned 8-bit value (00_scope.md, section 6). -/
abbrev Byte := BitVec 8

/-- The input event word `EV[9:0]` = `{in_kind[1:0], in_data[7:0]}` (R60). -/
abbrev EventWord := BitVec 10

/-- The 14 bytes of a frame, byte 0 first (R41); the content of `fb` at completion (R23) or of `du_frame` (R65). -/
abbrev RawFrame := Vector Byte 14

/-- A decoder-unit request: the ports `du_len[7:0]` and `du_frame[111:0]` (R31, R65). -/
structure DecoderRequest where
  len   : Byte
  frame : BitVec 112
  deriving DecidableEq, Repr

/-- An encoded instruction, on the port that carries its format: an event word on the event port (format EV, R60), or a
request on the decoder unit's ports (format DU, R65, which has no opcode bits). -/
inductive PortWord where
  | event   (w : EventWord)
  | request (r : DecoderRequest)
  deriving DecidableEq, Repr

end Sys2Proof
end

