-- ==== Sys2Proof/Config.lean ====
section
/-! DEFINITION. The fixed parameters of the hardware (00_scope.md R7, R8: constants, never arguments) and the model's one free
value, the content of a frame-buffer byte that nothing has written (10_state.md R29, R32). -/

namespace Sys2Proof.Config

/-- FRAME_LEN (R7): a frame is exactly 14 bytes. -/
def frameLen : Nat := 14

/-- PAYLOAD_LEN (R7): the bytes read after the marker. -/
def payloadLen : Nat := 13

/-- HEAD (R7, R74): the raw start-marker byte. -/
def head : Byte := 0x02

/-- TAIL (R7, R74): the raw end-marker byte. -/
def tail : Byte := 0x03

/-- FREE VALUE. What byte `offset` of `fb` holds while nothing has written it since the reset that left it unspecified, the
`epoch`-th one (10_state.md R32: "unspecified"; 93_implementation_defined.md I6: "any value"). It has no body, so that no proof
can lean on a value of it. DESIGN CHOICE (unsafe, log entries 1 and 10): the epoch and the offset are its only arguments, so that
an unwritten byte reads the same until it is written or reset again, and two instances of the block at equal epochs, as all are
at launch, read equal unwritten bytes; the spec relates no instance's bytes to another's (R53, R223). -/
opaque unwrittenByte (epoch offset : Nat) : Byte

end Sys2Proof.Config
end

