-- ==== Sys2Proof/Machine/Records.lean ====
section
/-! DEFINITION. What the decoder and the block answer, as tagged data (00_scope.md section 7, 30_encoding.md R66 to R70,
60_exceptions.md R210). None of it is state: a result exists only as the output of its step (10_state.md R26). -/

namespace Sys2Proof.Machine

/-- The field an InvalidHex error names (R70). -/
inductive FieldId where
  | version
  | tag
  | checksum
  deriving DecidableEq, Repr

/-- The four decode errors with the context each carries (R210, R69). -/
inductive DecodeError where
  /-- The buffer's length is not 14 (R131). -/
  | invalidLength (gotLen : Byte)
  /-- The head is not 0x02 or the tail is not 0x03 (R132). -/
  | invalidMarker (gotHead gotTail : Byte)
  /-- A field holds a byte that is no hex digit; `value` is the whole field as received (R157). -/
  | invalidHex (field : FieldId) (value : List Byte)
  /-- The computed checksum is not the transmitted one (R173). -/
  | checksum (computed expected : Byte)
  deriving DecidableEq, Repr

/-- The result of a successful decode (R136): the version, the tag as received and its decimal rendering. -/
structure TagRecord where
  protocolVersion : Byte
  rawTag          : Vector Byte 8
  formattedTag    : Vector Byte 10
  deriving DecidableEq, Repr

/-- The output event of a step (R66). -/
inductive Output where
  /-- NONE: nothing to report this step. -/
  | none
  /-- TAG: a frame decoded. -/
  | tag (r : TagRecord)
  /-- ERR: a frame failed to decode. -/
  | err (e : DecodeError)
  /-- END: the byte source ended. -/
  | ended
  deriving DecidableEq, Repr

end Sys2Proof.Machine
end

