-- ==== Sys2Proof/Machine/Operands.lean ====
section
/-! DEFINITION. The operands: the fields of a frame at their fixed offsets (20_memory.md R41, R45) and the hex-ASCII field parser
(42_hex_fields.md R150 to R158). INVALID is `none`. Numbers are exact naturals, narrowed once at the end (00_scope.md,
section 6). -/

namespace Sys2Proof.Machine

/-! ## Digit decoders -/

/-- `hexval(b)` (R150): the value of one ASCII hex digit of either case (R72), and INVALID for every other byte (R158). -/
def hexval (b : Byte) : Option Nat :=
  if 0x30 ≤ b.toNat ∧ b.toNat ≤ 0x39 then some (b.toNat - 0x30)
  else if 0x41 ≤ b.toNat ∧ b.toNat ≤ 0x46 then some (b.toNat - 0x37)
  else if 0x61 ≤ b.toNat ∧ b.toNat ≤ 0x66 then some (b.toNat - 0x57)
  else none

/-- `hex2(hi, lo)` (R151): two digits, most significant first (R46). -/
def hex2 (hi lo : Byte) : Option Byte := do
  let h ← hexval hi
  let l ← hexval lo
  return BitVec.ofNat 8 (16 * h + l)

/-- The values of a string of hex digits, INVALID when any byte is none. -/
def hexDigits : List Byte → Option (List Nat)
  | [] => some []
  | b :: bs => do
    let d ← hexval b
    let ds ← hexDigits bs
    return d :: ds

/-- The number that hex digits stand for: in a field of n digits the first has weight 16^(n-1) and the last weight 1 (R46). -/
def hexNumber : List Nat → Nat
  | [] => 0
  | d :: ds => d * 16 ^ ds.length + hexNumber ds

/-- `hex8(s)` (R156): eight digits as an unsigned number of TAG_W = 32 bits (R8). -/
def hex8 (s : Vector Byte 8) : Option (BitVec 32) := do
  let ds ← hexDigits s.toList
  return BitVec.ofNat 32 (hexNumber ds)

/-! ## The fields of a frame (R41) -/

/-- HEAD: offset 0. -/
def headByte (f : RawFrame) : Byte := f[0]

/-- TAIL: offset 13. -/
def tailByte (f : RawFrame) : Byte := f[13]

/-- VERSION: offsets [1,3). -/
def versionField (f : RawFrame) : Vector Byte 2 := #v[f[1], f[2]]

/-- TAG: offsets [3,11), the bytes as received (R153). -/
def rawTag (f : RawFrame) : Vector Byte 8 := #v[f[3], f[4], f[5], f[6], f[7], f[8], f[9], f[10]]

/-- CHECKSUM: offsets [11,13). -/
def checksumField (f : RawFrame) : Vector Byte 2 := #v[f[11], f[12]]

/-! ## Step 3 of the pipeline -/

/-- A two-digit field as a number; a byte that is no hex digit fails with the whole field (R152, R154, R157). -/
def parseField (field : FieldId) (v : Vector Byte 2) : Except DecodeError Byte :=
  match hex2 v[0] v[1] with
  | some n => .ok n
  | none => .error (.invalidHex field v.toList)

/-- `version` (R152). -/
def parseVersion (f : RawFrame) : Except DecodeError Byte := parseField .version (versionField f)

/-- `sent`, the transmitted checksum (R154). -/
def parseChecksum (f : RawFrame) : Except DecodeError Byte := parseField .checksum (checksumField f)

end Sys2Proof.Machine
end

