-- ==== Sys2Proof/Machine/Checksum.lean ====
section
/-! DEFINITION. The XOR checksum validator, step 4 of the pipeline (43_checksum.md R170 to R175). -/

namespace Sys2Proof.Machine

/-- The five tokens of the region `f[1,11)` (R170): the version pair and the four pairs of the tag. -/
def checksumTokens (f : RawFrame) : Option (Vector Byte 5) := do
  let t0 ← hex2 f[1] f[2]
  let t1 ← hex2 f[3] f[4]
  let t2 ← hex2 f[5] f[6]
  let t3 ← hex2 f[7] f[8]
  let t4 ← hex2 f[9] f[10]
  return #v[t0, t1, t2, t3, t4]

/-- Tokens, or InvalidHex on the tag (R171): the version pair has passed step 3, so only a tag pair can be INVALID here. -/
def parseTokens (f : RawFrame) : Except DecodeError (Vector Byte 5) :=
  match checksumTokens f with
  | some t => .ok t
  | none => .error (.invalidHex .tag (rawTag f).toList)

/-- `computed` (R172): the XOR of the tokens, left to right from t[0]. -/
def computedChecksum (t : Vector Byte 5) : Byte := t[0] ^^^ t[1] ^^^ t[2] ^^^ t[3] ^^^ t[4]

/-- The comparison (R173): exact equality with the transmitted value. -/
def compareChecksum (computed sent : Byte) : Except DecodeError Unit :=
  if computed = sent then .ok () else .error (.checksum computed sent)

end Sys2Proof.Machine
end

