-- ==== Sys2Proof/Syntax.lean ====
section
/-! DEFINITION. The instructions: one constructor per row of spec/opcode_table.json (00_scope.md R3). Reset is no instruction
(30_encoding.md R64): it is the `rst` input, see Machine/Step.lean. -/

namespace Sys2Proof

/-- The five operations. An event other than BYTE carries the data bits of its word although no meaning reads them (R62), so
that no bit of an encoding is dropped. -/
inductive Instr where
  /-- IDLE (R61): no event this step. -/
  | idle    (data : Byte)
  /-- BYTE (R61): one byte from the source. -/
  | byte    (data : Byte)
  /-- TIMEOUT (R61): the source's read timed out. -/
  | timeout (data : Byte)
  /-- EOS (R61): permanent end of stream. -/
  | eos     (data : Byte)
  /-- DECODE (R138): the decoder unit evaluates one candidate buffer of length `len`. -/
  | decode  (len : Byte) (frame : RawFrame)
  deriving DecidableEq, Repr

end Sys2Proof
end

