-- ==== Sys2Proof/WellFormed.lean ====
section
/-! DEFINITION. Which byte strings are an instruction. The operands' types are the ports' widths, and 30_encoding.md R63 leaves
no word of a port reserved or illegal, so every TERM of `Instr` is well formed and no check over `Instr` exists. What can be
ill formed is a string of bytes offered as an instruction: its length must be that of a format (R75: one 10-bit event word, or
one fixed-size request), and the six bits above a 10-bit event word must be 0. The layout in bytes is the model's: log entry 3. -/

namespace Sys2Proof

/-- Bytes an event word takes when it is laid out in bytes (10 bits, log entry 3). -/
def eventBytes : Nat := 2

/-- Bytes a decoder-unit request takes: `du_len` and the 14 bytes of `du_frame` (R65, log entry 3). -/
def requestBytes : Nat := 15

/-- The string has the length of a format (R75). -/
def lengthWellFormed (bs : List Byte) : Bool :=
  bs.length == eventBytes || bs.length == requestBytes

/-- A two-byte string holds no bit above the 10 bits of an event word (R60). -/
def eventBitsWellFormed : List Byte → Bool
  | [_, hi] => hi.extractLsb' 2 6 == 0
  | _ => true

/-- The string is an instruction laid out in bytes. -/
def bytesWellFormed (bs : List Byte) : Bool :=
  lengthWellFormed bs && eventBitsWellFormed bs

end Sys2Proof
end

