-- ==== Sys2Proof/Decode.lean ====
section
/-! DEFINITION. Decoding and encoding, from 30_encoding.md: the event word (R60, R61), the decoder-unit request (R65), and the
layout of either in bytes (log entry 3). Decoding a port's word is total, since no encoding is reserved (R63); decoding a
string of bytes rejects, by name, what is not well formed. -/

namespace Sys2Proof

/-- The number that a byte string stands for, first byte most significant. -/
def beNat : List Byte → Nat
  | [] => 0
  | b :: bs => b.toNat * 256 ^ bs.length + beNat bs

/-- The bytes as one word of `w` bits, first byte in the highest byte position when there are `w / 8` of them. -/
def packBytes (w : Nat) (bs : List Byte) : BitVec w := BitVec.ofNat w (beNat bs)

/-- Byte i of the candidate buffer is `du_frame[111 - 8i : 104 - 8i]` (R65). -/
def requestByte (frame : BitVec 112) (i : Nat) : Byte := frame.extractLsb' (104 - 8 * i) 8

/-- The 14 bytes of `du_frame`, byte 0 first (R65). -/
def unpackFrame (frame : BitVec 112) : RawFrame :=
  Vector.ofFn fun i => requestByte frame i

/-- `in_kind` = bits [9:8] of the event word (R60). -/
def eventKind (w : EventWord) : BitVec 2 := w.extractLsb' 8 2

/-- `in_data` = bits [7:0] of the event word (R60). -/
def eventData (w : EventWord) : Byte := w.extractLsb' 0 8

/-- The event an event word stands for, by its kind (R61). -/
def decodeEvent (w : EventWord) : Instr :=
  match eventKind w with
  | 0b00#2 => .idle (eventData w)
  | 0b01#2 => .byte (eventData w)
  | 0b10#2 => .timeout (eventData w)
  | 0b11#2 => .eos (eventData w)

/-- The operation of a decoder-unit request: the unit has one, DECODE (R65, R138). -/
def decodeRequest (r : DecoderRequest) : Instr := .decode r.len (unpackFrame r.frame)

/-- The instruction a port's word stands for. -/
def decodePort : PortWord → Instr
  | .event w => decodeEvent w
  | .request r => decodeRequest r

/-- Why a string of bytes is no instruction. -/
inductive Rejection where
  /-- No format has this length (R75). -/
  | wrongLength (length : Nat)
  /-- The second byte holds bits above the 10 bits of an event word (R60). -/
  | bitsAboveEventWord (hi : Byte)
  deriving DecidableEq, Repr

/-- The port's word that a string of bytes lays out: an event word in two bytes, low byte first, or a request in fifteen,
`du_len` and then the bytes of the frame in order. -/
def portWordOfBytes : List Byte → Except Rejection PortWord
  | [] => .error (.wrongLength 0)
  | [lo, hi] =>
    if hi.extractLsb' 2 6 = 0 then .ok (.event (hi.extractLsb' 0 2 ++ lo)) else .error (.bitsAboveEventWord hi)
  | len :: frame =>
    if frame.length = 14 then .ok (.request ⟨len, packBytes 112 frame⟩) else .error (.wrongLength (frame.length + 1))

/-- The instruction that a string of bytes lays out, or the reason why it is none. -/
def decodeBytes (bs : List Byte) : Except Rejection Instr :=
  match portWordOfBytes bs with
  | .ok p => .ok (decodePort p)
  | .error e => .error e

/-- The port's word of an instruction: the kind above the data (R60, R61), or `du_len` and `du_frame` (R65). -/
def encode : Instr → PortWord
  | .idle data => .event (0b00#2 ++ data)
  | .byte data => .event (0b01#2 ++ data)
  | .timeout data => .event (0b10#2 ++ data)
  | .eos data => .event (0b11#2 ++ data)
  | .decode len frame => .request ⟨len, packBytes 112 frame.toList⟩

/-- A port's word laid out in bytes. -/
def PortWord.toBytes : PortWord → List Byte
  | .event w => [w.extractLsb' 0 8, (w.extractLsb' 8 2).setWidth 8]
  | .request r => r.len :: (unpackFrame r.frame).toList

/-- An instruction laid out in bytes. -/
def encodeBytes (i : Instr) : List Byte := (encode i).toBytes

/-- The low `8 * n` bits of a number as `n` bytes, least significant first. -/
def leBytes : Nat → Nat → List Byte
  | 0, _ => []
  | n + 1, v => BitVec.ofNat 8 v :: leBytes n (v / 256)

/-- The bytes of a row of spec/opcode_table.json whose bits are `w`. A row of 9 to 16 bits is an event word (format EV, bits 9
to 0). The row of format DU has no opcode bits, so any other width is a request: `du_len` in bits 7 to 0, then the bytes of the
frame in order (log entry 3). -/
def tableBytes (nbits w : Nat) : List Byte :=
  if 8 < nbits ∧ nbits ≤ 16 then leBytes eventBytes (w % 2 ^ nbits) else leBytes requestBytes (w % 2 ^ nbits)

/-- The instruction the decoder reads from a row of spec/opcode_table.json whose bits are `w`. -/
def decodeTableWord (nbits w : Nat) : Option Instr :=
  match decodeBytes (tableBytes nbits w) with
  | .ok i => some i
  | .error _ => none

end Sys2Proof
end

