-- ==== Sys2Proof/Machine/State.lean ====
section
/-! DEFINITION. The state of the block as plain data: `phase`, `cnt` and `fb` (10_state.md R20), the ports of the current step
(R30, R31), and two fields of the model's own, `inputs` and `fbEpoch` (log entries 1 and 2). -/

namespace Sys2Proof.Machine

/-- The assembler's phase (R21), exactly three values. -/
inductive Phase where
  /-- Looking for the start marker. -/
  | scan
  /-- The marker has been seen and payload bytes are being collected. -/
  | asm
  /-- The byte source has signalled end of stream. -/
  | ended
  deriving DecidableEq, Repr

/-- The frame buffer's contents: the bytes that something has written, addresses strictly rising. An offset that is not listed
is one that nothing has written (log entry 1). -/
structure Memory where
  cells : List Host.Cell
  deriving DecidableEq, Repr

/-- The nine output ports of R30 (and, for the decoder unit, of R31), bit for bit. -/
structure OutPorts where
  kind    : BitVec 2
  version : Byte
  rawTag  : BitVec 64
  fmt     : BitVec 80
  err     : BitVec 2
  a       : Byte
  b       : Byte
  field   : BitVec 2
  value   : BitVec 64
  deriving DecidableEq, Repr

/-- Every port 0: the output NONE (R66, R71). -/
def OutPorts.zero : OutPorts :=
  { kind := 0, version := 0, rawTag := 0, fmt := 0, err := 0, a := 0, b := 0, field := 0, value := 0 }

/-- What the environment presents in one step: `rst` and the event word on the block's ports (R30), or a request on the decoder
unit's ports (R31). -/
inductive Input where
  | event   (rst : Bool) (word : EventWord)
  | request (r : DecoderRequest)
  deriving DecidableEq, Repr

/-- The state. `out` and `duOut` are the output of the step that led to it, and the next step replaces both (R244). -/
structure State where
  /-- The assembler's phase (R21). -/
  phase   : Phase
  /-- Payload bytes stored since the marker, a 4-bit counter (R22). -/
  cnt     : BitVec 4
  /-- The frame buffer (R23). -/
  fb      : Memory
  /-- MODEL'S OWN: how many reset steps have left `fb` unspecified; it draws the free value of an unwritten byte (log entry 1). -/
  fbEpoch : Nat
  /-- MODEL'S OWN: what the environment presents in the coming steps, the next step's first (log entry 2). -/
  inputs  : List Input
  /-- The block's output ports (R30). -/
  out     : OutPorts
  /-- The decoder unit's output ports (R31) in a step that makes a request of it; none in every other step, in which the spec
  gives them no value (log entry 4). -/
  duOut   : Option OutPorts
  deriving DecidableEq, Repr

/-- The launch state, which is the post-reset state (R32, R242): scanning, count 0, no byte of `fb` written, every output of
the block 0, no request made of the decoder unit. -/
def State.reset : State :=
  { phase := .scan, cnt := 0, fb := ⟨[]⟩, fbEpoch := 0, inputs := [], out := OutPorts.zero, duOut := none }

/-- Why the machine stops. -/
inductive Fault where
  /-- Raised by BYTE alone, in phase ASM with `cnt` 13, 14 or 15: the payload byte's offset 1 + cnt lies outside `fb` (R40) and
  no rule of R100 to R110 covers the step. R22 and R28 say that it never happens. SAFE: the model stops where the spec is
  silent. Log entry 5. -/
  | fbOffsetOutOfRange (offset : Nat)
  deriving DecidableEq, Repr

/-- Why an instruction has no meaning. -/
inductive Refusal where
  /-- Raised only by an arm of `exec` whose instruction has no meaning yet; no arm is such a one. SAFE. -/
  | notModelled (mnemonic : String)
  deriving DecidableEq, Repr

end Sys2Proof.Machine
end

