-- ==== Sys2Proof/Machine/Outputs.lean ====
section
/-! DEFINITION. The output word: how an output event stands on the ports (30_encoding.md R66 to R71) and which output a decode
result becomes (41_frame_decoder.md R140). The block has no flags (10_state.md R26), so there is no file of flag computations. -/

namespace Sys2Proof.Machine

/-- `out_kind` of NONE, TAG, ERR and END (R66). -/
def kindNone : BitVec 2 := 0b00
/-- `out_kind` of a TAG (R66). -/
def kindTag : BitVec 2 := 0b01
/-- `out_kind` of an ERR (R66). -/
def kindErr : BitVec 2 := 0b10
/-- `out_kind` of an END (R66). -/
def kindEnd : BitVec 2 := 0b11

/-- The field identifiers (R70). -/
def FieldId.code : FieldId → BitVec 2
  | .version => 0
  | .tag => 1
  | .checksum => 2

/-- The error codes (R69). -/
def DecodeError.code : DecodeError → BitVec 2
  | .invalidLength _ => 0
  | .invalidMarker _ _ => 1
  | .invalidHex _ _ => 2
  | .checksum _ _ => 3

/-- A field's bytes in `out_value`: the first in bits [63:56], left-aligned and zero-filled (R68). -/
def leftAligned (bs : List Byte) : BitVec 64 := packBytes 64 (bs ++ List.replicate (8 - bs.length) 0)

/-- The TAG payload (R67); every other port is 0 (R71). -/
def tagPorts (r : TagRecord) : OutPorts :=
  { OutPorts.zero with
    kind := kindTag, version := r.protocolVersion, rawTag := packBytes 64 r.rawTag.toList,
    fmt := packBytes 80 r.formattedTag.toList }

/-- The ERR payload (R68); every other port is 0 (R71). -/
def errPorts : DecodeError → OutPorts
  | .invalidLength n => { OutPorts.zero with kind := kindErr, err := (DecodeError.invalidLength n).code, a := n }
  | .invalidMarker h t => { OutPorts.zero with kind := kindErr, err := (DecodeError.invalidMarker h t).code, a := h, b := t }
  | .invalidHex fld v =>
    { OutPorts.zero with
      kind := kindErr, err := (DecodeError.invalidHex fld v).code, field := fld.code, value := leftAligned v }
  | .checksum c e => { OutPorts.zero with kind := kindErr, err := (DecodeError.checksum c e).code, a := c, b := e }

/-- An output event on the ports (R66). -/
def Output.toPorts : Output → OutPorts
  | .none => OutPorts.zero
  | .tag r => tagPorts r
  | .err e => errPorts e
  | .ended => { OutPorts.zero with kind := kindEnd }

/-- A decode result as an output event (R140). -/
def Output.ofResult : Except DecodeError TagRecord → Output
  | .ok r => .tag r
  | .error e => .err e

end Sys2Proof.Machine
end

