-- ==== Sys2Proof/Machine/Ops.lean ====
section
/-! DEFINITION. The named operations over the state: the frame buffer (20_memory.md R40 to R43), the output of a step (R30, R31),
reporting a decode result (the block's analogue of taking an exception, 60_exceptions.md R215), reset (70_reset_and_hazards.md
R240) and fetching the next step's input. The block has no register that reads or writes go through (10_state.md R24), and no
return from an error (R216). -/

namespace Sys2Proof.Machine

/-! ## The frame buffer -/

/-- The byte listed at an address, if one is. -/
def cellAt : List Host.Cell → Nat → Option Byte
  | [], _ => none
  | (k, v) :: rest, a => if k = a then some v else cellAt rest a

/-- The list with `b` at address `a`, in the place that keeps the addresses rising. -/
def putCell : List Host.Cell → Nat → Byte → List Host.Cell
  | [], a, b => [(a, b)]
  | (k, v) :: rest, a, b =>
    if a < k then (a, b) :: (k, v) :: rest
    else if a = k then (a, b) :: rest
    else (k, v) :: putCell rest a b

/-- The addresses are strictly rising from `lo` on, and below 14, the end of the block's one address space (R40). -/
def cellsFrom (lo : Nat) : List Host.Cell → Bool
  | [] => true
  | (k, _) :: rest => decide (lo ≤ k) && decide (k < Config.frameLen) && cellsFrom (k + 1) rest

/-- The canonical form: strictly rising addresses within `fb`. An unlisted offset reads as "nothing has written it", which no
entry equals, so two buffers with the same written bytes are equal data. -/
def Memory.wf (m : Memory) : Bool := cellsFrom 0 m.cells

/-- What has been written at an offset: a byte, or nothing since the last reset. -/
def Memory.read (m : Memory) (a : Nat) : Option Byte := cellAt m.cells a

/-- `fb[a] <- b` (R42). -/
def Memory.write (m : Memory) (a : Nat) (b : Byte) : Memory := ⟨putCell m.cells a b⟩

/-- `MemRead(a, 1)`: the byte at an offset, a free value where nothing has written one (log entry 1; equal in two instances at
equal `fbEpoch`, log entry 10). -/
def State.fbByte (s : State) (a : Nat) : Byte :=
  match s.fb.read a with
  | some b => b
  | none => Config.unwrittenByte s.fbEpoch a

/-- `MemRead(0, 14)`: the whole buffer as one snapshot (R43). -/
def State.snapshot (s : State) : RawFrame := Vector.ofFn fun i => s.fbByte i

/-- `MemWrite(a, 1, b)` (R42). -/
def memWrite (a : Nat) (b : Byte) (s : State) : State := { s with fb := s.fb.write a b }

/-! ## The output of a step -/

/-- `emit(o)` (00_scope.md, section 6): the block's output of this step. The decoder unit's own ports have no value in a
step that makes no request of it (log entry 4). -/
def emit (o : Output) (s : State) : State := { s with out := o.toPorts, duOut := none }

/-- The decoder unit's output of this step; the block itself, to which the step presents no event, emits NONE (log entry 4). -/
def emitUnit (o : Output) (s : State) : State := { s with out := Output.none.toPorts, duOut := some o.toPorts }

/-! ## The phase machine -/

/-- `phase` on its two bits (R21); 11 stands for no phase. -/
def Phase.code : Phase → BitVec 2
  | .scan => 0b00
  | .asm => 0b01
  | .ended => 0b10

/-- `cnt <- 0; phase <- p`: every transition into SCAN or ENDED (R22). -/
def leaveAssembly (p : Phase) (s : State) : State := { s with phase := p, cnt := 0 }

/-- The start marker is accepted (R103). -/
def acceptMarker (s : State) : State := { memWrite 0 Config.head s with phase := .asm, cnt := 0 }

/-- A payload byte is stored and counted (R105). -/
def storePayload (b : Byte) (s : State) : State := { memWrite (1 + s.cnt.toNat) b s with cnt := s.cnt + 1 }

/-- Report a decode result and scan on, whatever the result (R106, R140, R215). For an error this is the whole of what the block
does in place of taking an exception: no state is saved, no mode changes, nothing is jumped to. -/
def reportResult (r : Except DecodeError TagRecord) (s : State) : State :=
  emit (Output.ofResult r) (leaveAssembly .scan s)

/-! ## Reset and input -/

/-- A step with `rst` = 1 (R240): the reset values of R32, `fb` unspecified anew, the output NONE. -/
def takeReset (s : State) : State :=
  { emit .none (leaveAssembly .scan s) with fb := ⟨[]⟩, fbEpoch := s.fbEpoch + 1 }

/-- The IDLE event: a step in which the environment presents nothing (R61). -/
def idleInput : Input := .event false 0b00_00000000#10

/-- What the environment presents in the next step; nothing more to present is IDLE (log entry 2). -/
def nextInput (s : State) : Input := s.inputs.headD idleInput

/-- The next step's input is taken off the list. -/
def consume (s : State) : State := { s with inputs := s.inputs.tail }

/-- The instruction of an input, none where `rst` is 1 and the event is dropped (R240). -/
def inputInstr : Input → Option Instr
  | .event true _ => none
  | .event false w => some (decodePort (.event w))
  | .request r => some (decodePort (.request r))

/-- The instruction of the next step, none for a reset. -/
def fetch (s : State) : Option Instr := inputInstr (nextInput s)

/-- A port's word as an input of a step without reset. -/
def Input.ofPortWord : PortWord → Input
  | .event w => .event false w
  | .request r => .request r

/-- `s` with a port's word as what the environment presents next, before all that it would have presented. -/
def present (p : PortWord) (s : State) : State := { s with inputs := Input.ofPortWord p :: s.inputs }

end Sys2Proof.Machine
end

