-- ==== Sys2Proof/Machine/TagFormat.lean ====
section
/-! DEFINITION. The hex-to-decimal tag formatter, step 5 of the pipeline (44_tag_format.md R190 to R194). -/

namespace Sys2Proof.Machine

/-- `d[k]` of R191, k = 0 the most significant: `(v / 10^(9-k)) mod 10`. -/
def decimalDigit (v k : Nat) : Nat := v / 10 ^ (9 - k) % 10

/-- `dec10(v)` (R191): ten ASCII digits (R73), most significant first (R47). -/
def dec10 (v : BitVec 32) : Vector Byte 10 :=
  Vector.ofFn fun k => BitVec.ofNat 8 (0x30 + decimalDigit v.toNat k)

/-- `formatted_tag` (R190, R191). The failure is the branch that R194 calls unreachable, with the error R194 asks for. -/
def formatTag (raw : Vector Byte 8) : Except DecodeError (Vector Byte 10) :=
  match hex8 raw with
  | some value => .ok (dec10 value)
  | none => .error (.invalidHex .tag raw.toList)

end Sys2Proof.Machine
end

