-- ==== Sys2Proof/Machine/FrameDecoder.lean ====
section
/-! DEFINITION. The frame decoder: the pipeline (41_frame_decoder.md R130 to R137) and the meaning of DECODE (R138). -/

namespace Sys2Proof.Machine

/-- Step 1, the length check (R131). -/
def checkLength (len : Byte) : Except DecodeError Unit :=
  if len = 14#8 then .ok () else .error (.invalidLength len)

/-- Step 2, the marker check (R132). -/
def checkMarkers (f : RawFrame) : Except DecodeError Unit :=
  if headByte f ≠ Config.head ∨ tailByte f ≠ Config.tail then .error (.invalidMarker (headByte f) (tailByte f)) else .ok ()

/-- `decode(len, f)` (R130): the checks in the order of R137; the first that fails is the result. -/
def decodeFrame (len : Byte) (f : RawFrame) : Except DecodeError TagRecord := do
  checkLength len
  checkMarkers f
  let version ← parseVersion f
  let sent ← parseChecksum f
  let tokens ← parseTokens f
  compareChecksum (computedChecksum tokens) sent
  let formatted ← formatTag (rawTag f)
  return { protocolVersion := version, rawTag := rawTag f, formattedTag := formatted }

/-- DECODE (R138): the decoder unit's result, a function of the request alone (R31). No state of the block is read or written. -/
def execDecode (len : Byte) (frame : RawFrame) (s : State) : Host.Outcome State Fault Refusal :=
  .next (emitUnit (Output.ofResult (decodeFrame len frame)) s)

end Sys2Proof.Machine
end

