-- ==== Sys2Proof/Machine/FrameSync.lean ====
section
/-! DEFINITION. The frame synchronizer: the meanings of the four events, by phase (40_frame_sync.md R100 to R110). -/

namespace Sys2Proof.Machine

/-- The frame is complete (R106): its last byte is stored, the snapshot that includes it is decoded, the result is reported. -/
def completeFrame (b : Byte) (s : State) : State :=
  let s' := memWrite 13 b s
  reportResult (decodeFrame 14#8 s'.snapshot) s'

/-- IDLE: R102 in SCAN and ASM, R101 in ENDED. -/
def execIdle (_data : Byte) (s : State) : Host.Outcome State Fault Refusal := .next (emit .none s)

/-- BYTE: R103 and R104 in SCAN, R105 and R106 in ASM, R101 in ENDED. In ASM with `cnt` above 12, which R22 excludes, no rule
applies and the offset does not exist (log entry 5). -/
def execByte (data : Byte) (s : State) : Host.Outcome State Fault Refusal :=
  match s.phase with
  | .scan => if data = Config.head then .next (emit .none (acceptMarker s)) else .next (emit .none s)
  | .asm =>
    if s.cnt.toNat < 12 then .next (emit .none (storePayload data s))
    else if s.cnt.toNat = 12 then .next (completeFrame data s)
    else .fault (.fbOffsetOutOfRange (1 + s.cnt.toNat))
  | .ended => .next (emit .none s)

/-- TIMEOUT: R107 in SCAN, R108 in ASM (the fragment is left in place), R101 in ENDED. -/
def execTimeout (_data : Byte) (s : State) : Host.Outcome State Fault Refusal :=
  match s.phase with
  | .scan => .next (emit .none s)
  | .asm => .next (emit .none (leaveAssembly .scan s))
  | .ended => .next (emit .none s)

/-- EOS: R109 in SCAN, R110 in ASM (the fragment is not decoded), R101 in ENDED. -/
def execEos (_data : Byte) (s : State) : Host.Outcome State Fault Refusal :=
  match s.phase with
  | .scan => .next (emit .ended (leaveAssembly .ended s))
  | .asm => .next (emit .ended (leaveAssembly .ended s))
  | .ended => .next (emit .none s)

end Sys2Proof.Machine
end

