-- ==== Sys2Proof/Machine/Dispatch.lean ====
section
/-! DEFINITION. The meaning of every instruction: one arm per constructor of Instr. -/

namespace Sys2Proof.Machine

def exec (i : Instr) (s : State) : Host.Outcome State Fault Refusal :=
  match i with
  | .idle data => Sys2Proof.Machine.execIdle data s
  | .byte data => Sys2Proof.Machine.execByte data s
  | .timeout data => Sys2Proof.Machine.execTimeout data s
  | .eos data => Sys2Proof.Machine.execEos data s
  | .decode len frame => Sys2Proof.Machine.execDecode len frame s

end Sys2Proof.Machine
end

