-- ==== Sys2Proof/Machine/Step.lean ====
section
/-! DEFINITION. One step of the block (00_scope.md R9, 40_frame_sync.md R100): it takes the next input, and either resets
(70_reset_and_hazards.md R240) or executes the input's instruction. -/

namespace Sys2Proof.Machine

/-- One step. -/
def step (s : State) : Host.Outcome State Fault Refusal :=
  match fetch s with
  | none => .next (takeReset (consume s))
  | some i => exec i (consume s)

/-- `s` with the opcode-table word as what the environment presents in the very next step (log entry 2). A word that is no
instruction cannot stand on a port: then nothing is presented. -/
def State.withFetchWord (s : State) (nbits w : Nat) : State :=
  match portWordOfBytes (tableBytes nbits w) with
  | .ok p => present p s
  | .error _ => s

end Sys2Proof.Machine
end

