-- ==== Sys2Proof/Machine/EventPrograms.lean ====
section
/-! DEFINITION. The event-program shorthand of 30_encoding.md R76: inputs written as the lines of a listing. -/

namespace Sys2Proof.Machine

/-- `BYTE xx`. -/
def byteLine (b : Byte) : Input := Input.ofPortWord (encode (.byte b))

/-- `TIMEOUT`, with its ignored data bits 0. -/
def timeoutLine : Input := Input.ofPortWord (encode (.timeout 0))

/-- `EOS`, with its ignored data bits 0. -/
def eosLine : Input := Input.ofPortWord (encode (.eos 0))

/-- `RESET`: one step with `rst` = 1 (R64). -/
def resetLine : Input := .event true 0

/-- `IDLE*n`. -/
def idleLines (n : Nat) : List Input := List.replicate n idleInput

/-- `BYTES x1 ... xn`. -/
def byteLines (bs : List Byte) : List Input := bs.map byteLine

/-- The ASCII codes of a string. -/
def ascii (str : String) : List Byte := str.toList.map fun c => BitVec.ofNat 8 c.toNat

/-- `STR "c1...cn"`. -/
def strLines (str : String) : List Input := byteLines (ascii str)

/-- The frame whose twelve characters between the markers are given: what `FRAME` sends. -/
def frameOf (p : Vector Byte 12) : RawFrame :=
  #v[Config.head, p[0], p[1], p[2], p[3], p[4], p[5], p[6], p[7], p[8], p[9], p[10], p[11], Config.tail]

/-- `FRAME "s"`: the 14 bytes of a frame. -/
def frameLines (f : RawFrame) : List Input := byteLines f.toList

/-- One uppercase hex digit. -/
def upperHex (d : Nat) : Byte := BitVec.ofNat 8 (if d < 10 then 0x30 + d else 0x37 + d)

/-- The frame of a version and a tag with two given characters as its checksum field. -/
def frameWith (v : Vector Byte 2) (t : Vector Byte 8) (hi lo : Byte) : RawFrame :=
  frameOf #v[v[0], v[1], t[0], t[1], t[2], t[3], t[4], t[5], t[6], t[7], hi, lo]

/-- The frame of `GOODFRAME "VV" "TTTTTTTT"`: the checksum of R172 over VV and TTTTTTTT, as two uppercase hex digits; defined
only when VV and TTTTTTTT are all hex digits. -/
def goodFrame (v : Vector Byte 2) (t : Vector Byte 8) : Option RawFrame := do
  let tokens ← checksumTokens (frameWith v t 0 0)
  let c := (computedChecksum tokens).toNat
  return frameWith v t (upperHex (c / 16)) (upperHex (c % 16))

end Sys2Proof.Machine
end

