-- ==== Sys2Proof/Machine/Instances.lean ====
section
/-! DEFINITION. Several instances of the block (00_scope.md R8, 20_memory.md R53, 60_exceptions.md R223): independent copies, each
with its own state, event port and output port. N_INST is open, so it is an argument; which instance steps next is the
environment's choice, since there is no start order and no signal between instances. -/

namespace Sys2Proof.Machine

/-- The instances, in no order that means anything. -/
structure System where
  blocks : List State
  deriving DecidableEq, Repr

/-- `n` instances, each after its own reset (R223). DESIGN CHOICE (unsafe, log entry 10): all start at `fbEpoch` 0, so that their
unwritten bytes are equal, which the spec leaves open. -/
def System.reset (n : Nat) : System := ⟨List.replicate n State.reset⟩

/-- Instance `k` takes one step; a number that names no instance names nothing that could step. -/
def System.stepAt (sys : System) (k : Nat) : Host.Outcome System Fault Refusal :=
  match sys.blocks[k]? with
  | none => .next sys
  | some s =>
    match step s with
    | .next s' => .next ⟨sys.blocks.set k s'⟩
    | .fault f => .fault f
    | .refused r => .refused r

end Sys2Proof.Machine
end

