-- ==== Sys2Proof/Safety.lean ====
section
/-! DEFINITION. What statements about runs are made of: the invariant of the assembler (10_state.md R28), the states and outputs
of a run, and its observation (40_frame_sync.md R116). -/

namespace Sys2Proof.Machine

/-- The invariant: the buffer is canonical; in ASM the marker stands at offset 0, `cnt` is at most 12 and every offset of the
fragment has been written (R28); outside ASM `cnt` is 0 (R22). -/
abbrev State.Inv (s : State) : Prop :=
  s.fb.wf = true ∧
  (s.phase = .asm → s.fb.read 0 = some Config.head ∧ s.cnt.toNat ≤ 12 ∧ ∀ a, a ≤ s.cnt.toNat → (s.fb.read a).isSome) ∧
  (s.phase ≠ .asm → s.cnt = 0)

/-- The state after `n` steps, if each of them gave one. -/
def stateAfter : Nat → State → Option State
  | 0, s => some s
  | n + 1, s =>
    match step s with
    | .next s' => stateAfter n s'
    | _ => none

/-- A state is safe when every run from it goes on: no step faults or refuses. -/
def State.Safe (s : State) : Prop := ∀ n, (stateAfter n s).isSome

/-- The block's outputs of the first `n` steps. -/
def outputs : Nat → State → List OutPorts
  | 0, _ => []
  | n + 1, s =>
    match step s with
    | .next s' => s'.out :: outputs n s'
    | _ => []

/-- The observation of the first `n` steps (R116): the outputs that are not NONE, in step order. -/
def observation (n : Nat) (s : State) : List OutPorts := (outputs n s).filter fun o => o.kind ≠ kindNone

/-- `s` with a given script as what the environment presents from the next step on. -/
def State.withInputs (s : State) (script : List Input) : State := { s with inputs := script }

/-- The byte of an input that is a BYTE event without reset. -/
def Input.byte? (x : Input) : Option Byte :=
  match inputInstr x with
  | some (.byte b) => some b
  | _ => none

/-- The bytes that a script presents, in order. -/
def presentedBytes (script : List Input) : List Byte := script.filterMap Input.byte?

/-- The input ends an assembly without completing a frame: a TIMEOUT, an EOS or a reset (R27). -/
def Input.abandons (x : Input) : Bool :=
  match inputInstr x with
  | none => true
  | some (.timeout _) => true
  | some (.eos _) => true
  | _ => false

/-- The input is a step with `rst` = 1. -/
def Input.resets (x : Input) : Bool := (inputInstr x).isNone

/-- What the environment presents in step `k` of a run from `s`; past the end of the list, IDLE (log entry 2). -/
def State.inputAt (s : State) (k : Nat) : Input := s.inputs.getD k idleInput

/-- What the environment presents in the steps after step `u`, up to step `t` included. -/
def State.inputsAfter (s : State) (u t : Nat) : List Input := (List.range (t - u)).map fun j => s.inputAt (u + 1 + j)

/-- What the block's output ports carry in the step that completes a frame (R106, R140). -/
def reportPorts (f : RawFrame) : OutPorts := (Output.ofResult (decodeFrame 14#8 f)).toPorts

/-- Two states that differ at most in bytes of `fb` that the current assembly has not written, in where those bytes' free
values come from, and in the outputs of the step before. -/
def State.agree (s t : State) : Prop :=
  s.phase = t.phase ∧ s.cnt = t.cnt ∧ s.inputs = t.inputs ∧
  (s.phase = .asm → ∀ a, a ≤ s.cnt.toNat → s.fbByte a = t.fbByte a)

end Sys2Proof.Machine
end

