-- ==== Sys2Proof/Certificates/Slice0/Obligations.lean ====
section
/-! DEFINITION. The statements for the provers. Each docstring names the rule of spec/ it formalises, and the log entry wherever
a clause rests on a choice of the model. -/

open Sys2Proof Sys2Proof.Machine

/-! ## Encoding -/

/-- Decoding an encoded instruction gives it back, with every operand at every value, in bytes and on the port; and every word of
a port is the encoding of the instruction it stands for, so that no bit is dropped (R60, R61, R63, R65; the bytes are the
model's layout, log entry 3). -/
def Obligations.EveryInstructionDecodesFromItsEncoding : Prop :=
  (∀ i : Instr, decodeBytes (encodeBytes i) = .ok i) ∧ (∀ i : Instr, decodePort (encode i) = i) ∧
  ∀ p : PortWord, encode (decodePort p) = p

/-- Bytes that decode are the encoding of what they decode to: no two byte strings stand for one instruction (log entry 3). -/
def Obligations.DecodedBytesEncodeBack : Prop :=
  ∀ (bs : List Byte) (i : Instr), decodeBytes bs = .ok i → encodeBytes i = bs

/-- A byte string decodes exactly when it is well formed, and each ill-formed one is rejected by name (R60, R63, R75, log
entry 3). -/
def Obligations.BytesDecodeExactlyWhenWellFormed : Prop :=
  ∀ bs : List Byte,
    (bytesWellFormed bs = true ↔ ∃ i, decodeBytes bs = .ok i) ∧
    (lengthWellFormed bs = false → decodeBytes bs = .error (.wrongLength bs.length)) ∧
    (∀ lo hi : Byte, bs = [lo, hi] → hi.extractLsb' 2 6 ≠ 0#6 → decodeBytes bs = .error (.bitsAboveEventWord hi))

/-- The event word's kind selects the instruction and its low byte is the data: every one of the 1024 words has a meaning (R60,
R61, R63). -/
def Obligations.EventKindSelectsTheInstruction : Prop :=
  ∀ w : EventWord,
    (w.extractLsb' 8 2 = 0b00#2 → decodeEvent w = .idle (w.extractLsb' 0 8)) ∧
    (w.extractLsb' 8 2 = 0b01#2 → decodeEvent w = .byte (w.extractLsb' 0 8)) ∧
    (w.extractLsb' 8 2 = 0b10#2 → decodeEvent w = .timeout (w.extractLsb' 0 8)) ∧
    (w.extractLsb' 8 2 = 0b11#2 → decodeEvent w = .eos (w.extractLsb' 0 8))

/-- Byte i of a request's buffer is `du_frame[111 - 8i : 104 - 8i]`, and `du_len` is the length (R65). -/
def Obligations.RequestBytesStandHighestFirst : Prop :=
  ∀ r : DecoderRequest, ∃ f : RawFrame, decodeRequest r = .decode r.len f ∧
    ∀ i (h : i < 14), f[i] = r.frame.extractLsb' (104 - 8 * i) 8

/-- Words written out from the spec's listings decode to what they stand for (R60, R61, R65; the words of programs P1 and P9 and
of section 2.7 of 95_test_vectors.md). -/
def Obligations.WrittenOutWordsDecode : Prop :=
  decodeTableWord 16 0b00_00000000 = some (.idle 0x00#8) ∧
  decodeTableWord 16 0b01_00000010 = some (.byte 0x02#8) ∧
  decodeTableWord 16 0b01_01000001 = some (.byte 0x41#8) ∧
  decodeTableWord 16 0b10_01000001 = some (.timeout 0x41#8) ∧
  decodeTableWord 16 0b11_00000000 = some (.eos 0x00#8) ∧
  decodeRequest ⟨14#8, 0x0230314142434430303030363703#112⟩ =
    .decode 14#8 #v[0x02#8, 0x30#8, 0x31#8, 0x41#8, 0x42#8, 0x43#8, 0x44#8, 0x30#8, 0x30#8, 0x30#8, 0x30#8, 0x36#8, 0x37#8,
      0x03#8]

/-- The data bits of an event word are read only when the kind is BYTE (R62). -/
def Obligations.DataBitsMatterOnlyForByte : Prop :=
  ∀ (w w' : EventWord) (s : State), w.extractLsb' 8 2 = w'.extractLsb' 8 2 → w.extractLsb' 8 2 ≠ 0b01#2 →
    exec (decodeEvent w) s = exec (decodeEvent w') s

/-! ## One step, and reset -/

/-- A step executes the instruction that the environment presents, on the state that has taken it off the list; where nothing
more is presented it executes IDLE; and bytes that lay out a port's word run the instruction they decode to (R9, R100, log
entry 2). -/
def Obligations.StepRunsThePresentedInstruction : Prop :=
  (∀ (s : State) (w : EventWord) (rest : List Input), s.inputs = .event false w :: rest →
    step s = exec (decodeEvent w) { s with inputs := rest }) ∧
  (∀ (s : State) (r : DecoderRequest) (rest : List Input), s.inputs = .request r :: rest →
    step s = exec (decodeRequest r) { s with inputs := rest }) ∧
  (∀ s : State, s.inputs = [] → step s = exec (.idle 0#8) s) ∧
  (∀ (s : State) (bs : List Byte) (p : PortWord) (i : Instr), portWordOfBytes bs = .ok p → decodeBytes bs = .ok i →
    step (present p s) = exec i s)

/-- R240: a step with `rst` = 1, in every phase and whatever the event: scanning, count 0, the output NONE, the event without
effect (what `fb` then holds is unspecified); and no instruction leaves ENDED, so that reset is the only way out. -/
def Obligations.ResetStepOverridesTheEvent : Prop :=
  (∀ (s : State) (w : EventWord) (rest : List Input), s.inputs = .event true w :: rest →
    ∃ t, step s = .next t ∧ t.phase = .scan ∧ t.cnt = 0#4 ∧ t.out = OutPorts.zero ∧ t.inputs = rest ∧
      ∀ w', step { s with inputs := .event true w' :: rest } = .next t) ∧
  (∀ (i : Instr) (s t : State), s.phase = .ended → exec i s = .next t → t.phase = .ended)

/-- The launch state has the post-reset values of R32. What the model makes of an unspecified `fb`, there and after every reset
step, is its own choice: no byte is written any more, and the free values of the bytes are drawn anew (log entry 1); no request
is made of the decoder unit (log entry 4) and nothing is presented yet (log entry 2). -/
def Obligations.LaunchStateIsPostReset : Prop :=
  (State.reset.phase = .scan ∧ State.reset.cnt = 0#4 ∧ (∀ a, State.reset.fb.read a = none) ∧
    State.reset.out = OutPorts.zero ∧ State.reset.duOut = none ∧ State.reset.inputs = []) ∧
  ∀ (s : State) (w : EventWord) (rest : List Input), s.inputs = .event true w :: rest →
    ∃ t, step s = .next t ∧ (∀ a, t.fb.read a = none) ∧ t.fbEpoch = s.fbEpoch + 1 ∧ t.duOut = none

/-- Every instruction (IDLE, BYTE, TIMEOUT, EOS, DECODE) completes in every state that meets the invariant (R63, R100). -/
def Obligations.EveryInstructionCompletes : Prop :=
  ∀ (i : Instr) (s : State), s.Inv → ∃ t, exec i s = .next t

/-- In ASM with a count that R22 excludes a BYTE stops, naming the offset outside `fb`: the model's choice, log entry 5. -/
def Obligations.ExcludedCountStopsAByte : Prop :=
  ∀ (s : State) (b : Byte), s.phase = .asm → 12 < s.cnt.toNat →
    exec (.byte b) s = .fault (.fbOffsetOutOfRange (1 + s.cnt.toNat))

/-! ## The synchronizer, one rule each -/

/-- R101: in ENDED every event emits NONE and changes no state, and only a step with `rst` = 1 leaves ENDED. -/
def Obligations.EndedIgnoresEveryEvent : Prop :=
  (∀ (s : State) (d : Byte) (i : Instr), s.phase = .ended → i ∈ [Instr.idle d, .byte d, .timeout d, .eos d] →
    ∃ d', exec i s = .next { s with out := OutPorts.zero, duOut := d' }) ∧
  (∀ s t : State, s.phase = .ended → step s = .next t → t.phase ≠ .ended →
    ∃ w rest, s.inputs = .event true w :: rest)

/-- R102: IDLE in SCAN or ASM emits NONE and changes no state. -/
def Obligations.IdleChangesNothing : Prop :=
  ∀ (s : State) (d : Byte), s.phase = .scan ∨ s.phase = .asm →
    ∃ d', exec (.idle d) s = .next { s with out := OutPorts.zero, duOut := d' }

/-- R103: BYTE 0x02 in SCAN starts a frame: it is stored at offset 0, the count is 0, the phase ASM, the output NONE, and no
other byte value leaves SCAN. -/
def Obligations.MarkerStartsAFrame : Prop :=
  ∀ s : State, s.phase = .scan →
    (∃ t, exec (.byte 0x02#8) s = .next t ∧ t.phase = .asm ∧ t.cnt = 0#4 ∧ t.fb.read 0 = some 0x02#8 ∧
      (∀ a, a ≠ 0 → t.fb.read a = s.fb.read a) ∧ t.fbEpoch = s.fbEpoch ∧ t.inputs = s.inputs ∧
      t.out = OutPorts.zero) ∧
    (∀ (b : Byte) (t : State), exec (.byte b) s = .next t → t.phase ≠ .scan → b = 0x02#8)

/-- R104: any other BYTE in SCAN is discarded: NONE, no state changes. -/
def Obligations.OtherBytesAreDiscardedInScan : Prop :=
  ∀ (s : State) (b : Byte), s.phase = .scan → b ≠ 0x02#8 →
    ∃ d', exec (.byte b) s = .next { s with out := OutPorts.zero, duOut := d' }

/-- R105: a BYTE of any value in ASM with cnt < 12 is stored at offset 1 + cnt and counted; every other offset reads as before. -/
def Obligations.PayloadByteIsStoredAndCounted : Prop :=
  ∀ (s : State) (b : Byte), s.phase = .asm → s.cnt.toNat < 12 →
    ∃ t, exec (.byte b) s = .next t ∧ t.phase = .asm ∧ t.cnt.toNat = s.cnt.toNat + 1 ∧
      t.fb.read (1 + s.cnt.toNat) = some b ∧ (∀ a, a ≠ 1 + s.cnt.toNat → t.fb.read a = s.fb.read a) ∧
      t.fbEpoch = s.fbEpoch ∧ t.inputs = s.inputs ∧ t.out = OutPorts.zero

/-- R106: a BYTE in ASM with cnt = 12 is stored at offset 13, the 14 bytes that include it are decoded with length 14, the result
is reported in this step, and the next state is SCAN with count 0 whatever the result. -/
def Obligations.LastByteCompletesDecodesAndReports : Prop :=
  ∀ (s : State) (b : Byte), s.phase = .asm → s.cnt.toNat = 12 →
    ∃ (t : State) (f : RawFrame), exec (.byte b) s = .next t ∧ t.phase = .scan ∧ t.cnt = 0#4 ∧
      t.fb.read 13 = some b ∧ (∀ a, a ≠ 13 → t.fb.read a = s.fb.read a) ∧
      (∀ i (h : i < 14), i ≠ 13 → f[i] = s.fbByte i) ∧ f[13] = b ∧
      (∀ r, decodeFrame 14#8 f = .ok r → t.out = tagPorts r) ∧ (∀ e, decodeFrame 14#8 f = .error e → t.out = errPorts e) ∧
      t.fbEpoch = s.fbEpoch ∧ t.inputs = s.inputs

/-- R107: a TIMEOUT in SCAN emits NONE and changes no state. -/
def Obligations.TimeoutInScanIsIgnored : Prop :=
  ∀ (s : State) (d : Byte), s.phase = .scan →
    ∃ d', exec (.timeout d) s = .next { s with out := OutPorts.zero, duOut := d' }

/-- R108: a TIMEOUT in ASM, at every count, goes back to SCAN with count 0 and emits NONE; the buffer is left in place. -/
def Obligations.TimeoutDiscardsTheFragment : Prop :=
  ∀ (s : State) (d : Byte), s.phase = .asm →
    ∃ d', exec (.timeout d) s =
      .next { s with phase := .scan, cnt := 0#4, out := OutPorts.zero, duOut := d' }

/-- R109: an EOS in SCAN ends the run: ENDED, count 0, the output END. -/
def Obligations.EndOfStreamInScan : Prop :=
  ∀ (s : State) (d : Byte), s.phase = .scan →
    ∃ d', exec (.eos d) s =
      .next { s with phase := .ended, cnt := 0#4, out := { OutPorts.zero with kind := 0b11#2 }, duOut := d' }

/-- R110: an EOS in ASM, at every count, ends the run without decoding the fragment: ENDED, count 0, the output END. -/
def Obligations.EndOfStreamDiscardsTheFragment : Prop :=
  ∀ (s : State) (d : Byte), s.phase = .asm →
    ∃ d', exec (.eos d) s =
      .next { s with phase := .ended, cnt := 0#4, out := { OutPorts.zero with kind := 0b11#2 }, duOut := d' }

/-- R138: DECODE puts the result of the request alone on the decoder unit's ports, whatever the state, and changes nothing of the
block; that the block's own output is NONE in that step, and that the unit's ports have no value in a step of any other
instruction, is the model's choice, log entry 4. -/
def Obligations.DecodeReportsOnTheUnitPorts : Prop :=
  (∀ (len : Byte) (f : RawFrame) (s : State),
    (∀ r, decodeFrame len f = .ok r →
      exec (.decode len f) s = .next { s with out := OutPorts.zero, duOut := some (tagPorts r) }) ∧
    (∀ e, decodeFrame len f = .error e →
      exec (.decode len f) s = .next { s with out := OutPorts.zero, duOut := some (errPorts e) })) ∧
  ∀ (i : Instr) (s t : State), (∀ len f, i ≠ .decode len f) → exec i s = .next t → t.duOut = none

/-! ## The machine as a whole, one instruction at a time -/

/-- R42: the buffer changes only where the assembler stores: the marker at offset 0, a payload byte at offset 1 + cnt, one byte
in a step; every other offset, and for every other instruction every offset, reads as before. -/
def Obligations.BufferIsWrittenOnlyByTheAssembler : Prop :=
  ∀ (i : Instr) (s t : State), exec i s = .next t →
    (∀ a, t.fb.read a ≠ s.fb.read a →
      (i = .byte 0x02#8 ∧ s.phase = .scan ∧ a = 0) ∨ (∃ b, i = .byte b ∧ s.phase = .asm ∧ a = 1 + s.cnt.toNat)) ∧
    (i = .byte 0x02#8 → s.phase = .scan → t.fb.read 0 = some 0x02#8) ∧
    (∀ b, i = .byte b → s.phase = .asm → t.fb.read (1 + s.cnt.toNat) = some b) ∧
    t.fbEpoch = s.fbEpoch ∧ t.inputs = s.inputs

/-- Which instruction makes which transition of the phase (R21, R103, R106, R108 to R110), and the count afterwards (R22). -/
def Obligations.PhaseChangesOnlyByTheRules : Prop :=
  ∀ (i : Instr) (s t : State), exec i s = .next t → t.phase ≠ s.phase →
    (s.phase = .scan ∧ t.phase = .asm ∧ i = .byte 0x02#8 ∧ t.cnt = 0#4) ∨
    (s.phase = .asm ∧ t.phase = .scan ∧ t.cnt = 0#4 ∧ ((∃ d, i = .timeout d) ∨ (s.cnt.toNat = 12 ∧ ∃ b, i = .byte b))) ∨
    (s.phase ≠ .ended ∧ t.phase = .ended ∧ t.cnt = 0#4 ∧ ∃ d, i = .eos d)

/-- When each kind of output is emitted (R250): TAG or ERR exactly by the BYTE that completes a frame, END exactly by an EOS
outside ENDED, and NONE with every port 0 otherwise. -/
def Obligations.OutputsAreEmittedInTheirOwnStep : Prop :=
  ∀ (i : Instr) (s t : State), exec i s = .next t →
    ((t.out.kind = 0b01#2 ∨ t.out.kind = 0b10#2) ↔ (∃ b, i = .byte b) ∧ s.phase = .asm ∧ s.cnt.toNat = 12) ∧
    (t.out.kind = 0b11#2 ↔ (∃ d, i = .eos d) ∧ s.phase ≠ .ended) ∧
    (t.out.kind = 0b00#2 → t.out = OutPorts.zero)

/-- R26: no result is kept: what stood on the output ports before a step has no part in what the step does. -/
def Obligations.NoResultIsKept : Prop :=
  ∀ (s : State) (o : OutPorts) (d : Option OutPorts), step { s with out := o, duOut := d } = step s

/-- R113 (which the spec derives): every frame that the assembler passes to the decoder has the marker at offset 0, so that at the
top level no InvalidLength is reported, and InvalidMarker only for a tail byte other than 0x03, the head byte being right. -/
def Obligations.TopLevelReportsNoWrongLengthOrHead : Prop :=
  ∀ (s t : State) (b : Byte), s.Inv → exec (.byte b) s = .next t →
    (t.out.kind = 0b01#2 ∨ t.out.kind = 0b10#2 → ∃ f : RawFrame, f[0] = 0x02#8 ∧ t.out = reportPorts f) ∧
    (t.out.kind = 0b10#2 → t.out.err ≠ 0#2 ∧ (t.out.err = 1#2 → t.out.a = 0x02#8 ∧ t.out.b = b ∧ b ≠ 0x03#8))

/-- The three phase codes of R21 differ, and none is 11. -/
def Obligations.PhaseCodesAreThree : Prop :=
  Phase.code .scan = 0b00#2 ∧ Phase.code .asm = 0b01#2 ∧ Phase.code .ended = 0b10#2 ∧ ∀ p : Phase, p.code ≠ 0b11#2

/-! ## The decode pipeline -/

/-- R131: every length but 14 gives InvalidLength with that length, whatever the buffer holds, and 14 never does. -/
def Obligations.LengthIsCheckedFirst : Prop :=
  ∀ (len : Byte) (f : RawFrame),
    (len ≠ 14#8 → decodeFrame len f = .error (.invalidLength len)) ∧ ∀ n, decodeFrame 14#8 f ≠ .error (.invalidLength n)

/-- R132: a wrong head, a wrong tail or both give the one error InvalidMarker with both bytes as received, before any field is
looked at; and nothing else gives it. -/
def Obligations.MarkersAreCheckedSecond : Prop :=
  ∀ f : RawFrame,
    (f[0] ≠ 0x02#8 ∨ f[13] ≠ 0x03#8 → decodeFrame 14#8 f = .error (.invalidMarker f[0] f[13])) ∧
    ∀ h t, decodeFrame 14#8 f = .error (.invalidMarker h t) → (f[0] ≠ 0x02#8 ∨ f[13] ≠ 0x03#8) ∧ h = f[0] ∧ t = f[13]

/-- R137, R130: the checks in their order, each with the error it reports, and the record when all pass. -/
def Obligations.FirstFailingCheckIsReported : Prop :=
  ∀ (len : Byte) (f : RawFrame),
    (len ≠ 14#8 → decodeFrame len f = .error (.invalidLength len)) ∧
    (len = 14#8 →
      (f[0] ≠ 0x02#8 ∨ f[13] ≠ 0x03#8 → decodeFrame len f = .error (.invalidMarker f[0] f[13])) ∧
      (f[0] = 0x02#8 → f[13] = 0x03#8 →
        (hexval f[1] = none ∨ hexval f[2] = none → decodeFrame len f = .error (.invalidHex .version [f[1], f[2]])) ∧
        ∀ v, hex2 f[1] f[2] = some v →
          (hexval f[11] = none ∨ hexval f[12] = none →
            decodeFrame len f = .error (.invalidHex .checksum [f[11], f[12]])) ∧
          ∀ c, hex2 f[11] f[12] = some c →
            ((∃ k, ∃ h : k < 14, 3 ≤ k ∧ k ≤ 10 ∧ hexval f[k] = none) →
              decodeFrame len f = .error (.invalidHex .tag [f[3], f[4], f[5], f[6], f[7], f[8], f[9], f[10]])) ∧
            ∀ t1 t2 t3 t4, hex2 f[3] f[4] = some t1 → hex2 f[5] f[6] = some t2 → hex2 f[7] f[8] = some t3 →
              hex2 f[9] f[10] = some t4 →
              (v ^^^ t1 ^^^ t2 ^^^ t3 ^^^ t4 ≠ c →
                decodeFrame len f = .error (.checksum (v ^^^ t1 ^^^ t2 ^^^ t3 ^^^ t4) c)) ∧
              (v ^^^ t1 ^^^ t2 ^^^ t3 ^^^ t4 = c →
                ∃ n, hex8 #v[f[3], f[4], f[5], f[6], f[7], f[8], f[9], f[10]] = some n ∧
                  decodeFrame len f =
                    .ok ⟨v, #v[f[3], f[4], f[5], f[6], f[7], f[8], f[9], f[10]], dec10 n⟩)))

/-- R150: the 22 bytes of its three ranges with their values, written out one by one; every other byte is INVALID. -/
def Obligations.HexDigitsAreTheTwentyTwoCodes : Prop :=
  ∀ (b : Byte) (v : Nat), hexval b = some v ↔
    (b, v) ∈ ([(0x30#8, 0), (0x31#8, 1), (0x32#8, 2), (0x33#8, 3), (0x34#8, 4), (0x35#8, 5), (0x36#8, 6), (0x37#8, 7),
      (0x38#8, 8), (0x39#8, 9), (0x41#8, 10), (0x42#8, 11), (0x43#8, 12), (0x44#8, 13), (0x45#8, 14), (0x46#8, 15),
      (0x61#8, 10), (0x62#8, 11), (0x63#8, 12), (0x64#8, 13), (0x65#8, 14), (0x66#8, 15)] : List (Byte × Nat))

/-- R151: a pair with a byte that is no digit is INVALID; any other pair is 16 times the first digit plus the second. -/
def Obligations.HexPairIsSixteenTimesTheFirstPlusTheSecond : Prop :=
  ∀ hi lo : Byte,
    (hexval hi = none ∨ hexval lo = none → hex2 hi lo = none) ∧
    (∀ h l, hexval hi = some h → hexval lo = some l → ∃ v, hex2 hi lo = some v ∧ v.toNat = 16 * h + l)

/-- R156: eight digits give the sum of each digit's value times its weight, exactly; any other string is INVALID. -/
def Obligations.EightDigitsAreTheirWeightedSum : Prop :=
  ∀ s : Vector Byte 8,
    ((∃ k : Fin 8, hexval s[k.val] = none) → hex8 s = none) ∧
    (∀ d : Fin 8 → Nat, (∀ k : Fin 8, hexval s[k.val] = some (d k)) →
      ∃ v, hex8 s = some v ∧ v.toNat = ∑ k : Fin 8, d k * 16 ^ (7 - k.val))

/-- R191: digit k of the rendering, k = 0 the most significant. -/
def Obligations.DecimalDigitsByDivision : Prop :=
  ∀ (v : BitVec 32) (k : Nat) (h : k < 10), ((dec10 v)[k]).toNat = 0x30 + v.toNat / 10 ^ (9 - k) % 10

/-- R192 (which the spec derives): ten digits are always enough: they are decimal digits, the first is at most 4, and their
number is the value. -/
def Obligations.TenDecimalDigitsGiveTheValueBack : Prop :=
  ∀ v : BitVec 32,
    (∑ k : Fin 10, (((dec10 v)[k.val]).toNat - 0x30) * 10 ^ (9 - k.val)) = v.toNat ∧
    (∀ k : Fin 10, 0x30 ≤ ((dec10 v)[k.val]).toNat ∧ ((dec10 v)[k.val]).toNat ≤ 0x39) ∧ ((dec10 v)[0]).toNat ≤ 0x34

/-- R136 (which the spec derives): what a record holds: the version's value, the tag's eight bytes as they arrived, each a hex
digit, and ten decimal digits. -/
def Obligations.RecordHoldsTheFieldsAndTenDigits : Prop :=
  ∀ (len : Byte) (f : RawFrame) (r : TagRecord), decodeFrame len f = .ok r →
    hex2 f[1] f[2] = some r.protocolVersion ∧
    (∀ k (h : k < 8), r.rawTag[k] = f[3 + k] ∧ (hexval r.rawTag[k]).isSome) ∧
    (∀ k (h : k < 10), 0x30 ≤ (r.formattedTag[k]).toNat ∧ (r.formattedTag[k]).toNat ≤ 0x39) ∧
    ∃ n, hex8 r.rawTag = some n ∧ r.formattedTag = dec10 n

/-- R193 (which the spec derives): the formatted tag depends on the digits' values and not on their case, while each record
keeps the case received. -/
def Obligations.FormattedTagIgnoresLetterCase : Prop :=
  ∀ (f g : RawFrame) (r q : TagRecord), decodeFrame 14#8 f = .ok r → decodeFrame 14#8 g = .ok q →
    (∀ k (h : k < 14), 3 ≤ k → k ≤ 10 → hexval f[k] = hexval g[k]) →
    r.formattedTag = q.formattedTag ∧ ∀ k (h : k < 8), r.rawTag[k] = f[3 + k] ∧ q.rawTag[k] = g[3 + k]

/-- R194 (which the spec derives): once step 4 has read the tag's tokens, the tag's value exists and step 5 cannot fail. -/
def Obligations.CanonicalizationNeverFails : Prop :=
  ∀ (f : RawFrame) (t : Vector Byte 5), checksumTokens f = some t → ∃ v, formatTag (rawTag f) = .ok v

/-- R141 (which the spec derives): the round trip. For any 2 hex digits V, any 8 hex digits T and a checksum field, in either
case, that is the XOR of the five pairs, the frame decodes to the tag T byte for byte and the version V. -/
def Obligations.AnyValidTagAndVersionRoundTrip : Prop :=
  ∀ (v : Vector Byte 2) (t : Vector Byte 8) (hi lo p0 p1 p2 p3 p4 : Byte),
    hex2 v[0] v[1] = some p0 → hex2 t[0] t[1] = some p1 → hex2 t[2] t[3] = some p2 → hex2 t[4] t[5] = some p3 →
    hex2 t[6] t[7] = some p4 → hex2 hi lo = some (p0 ^^^ p1 ^^^ p2 ^^^ p3 ^^^ p4) →
    ∃ r, decodeFrame 14#8 (frameWith v t hi lo) = .ok r ∧ r.rawTag = t ∧ r.protocolVersion = p0

/-- R142 (which the spec derives): a frame that decodes, with a wrong byte 0, a wrong byte 13 or both put in, gives
InvalidMarker with those bytes. -/
def Obligations.WrongMarkersAreReportedAsPut : Prop :=
  ∀ (f : RawFrame) (r : TagRecord) (h t : Byte), decodeFrame 14#8 f = .ok r → h ≠ 0x02#8 ∨ t ≠ 0x03#8 →
    decodeFrame 14#8 ((f.set 0 h).set 13 t) = .error (.invalidMarker h t)

/-- R174 (which the spec derives): a frame that decodes, with one byte of offsets 1 to 10 changed: another digit value gives
ChecksumError, a byte that is no digit gives InvalidHex on the version or the tag, and the same digit in the other case still
decodes, with only the raw tag's case changed. -/
def Obligations.OneChangedByteFallsIntoThreeCases : Prop :=
  ∀ (f : RawFrame) (r : TagRecord) (k : Nat) (hk : k < 14) (b : Byte), decodeFrame 14#8 f = .ok r → 1 ≤ k → k ≤ 10 →
    b ≠ f[k] →
    (∀ d, hexval b = some d → hexval f[k] ≠ some d →
      ∃ computed sent, hex2 f[11] f[12] = some sent ∧ computed ≠ sent ∧
        decodeFrame 14#8 (f.set k b hk) = .error (.checksum computed sent)) ∧
    (hexval b = none →
      (k ≤ 2 → ∃ x y, decodeFrame 14#8 (f.set k b hk) = .error (.invalidHex .version [x, y])) ∧
      (3 ≤ k → ∃ v, decodeFrame 14#8 (f.set k b hk) = .error (.invalidHex .tag v))) ∧
    (hexval b = hexval f[k] → decodeFrame 14#8 (f.set k b hk) = .ok { r with rawTag := rawTag (f.set k b hk) })

/-! ## The output word -/

/-- R67: where a record's fields stand on the ports; the error ports are 0. -/
def Obligations.TagPayloadPlaces : Prop :=
  ∀ r : TagRecord,
    (tagPorts r).kind = 0b01#2 ∧ (tagPorts r).version = r.protocolVersion ∧
    (∀ k (h : k < 8), (tagPorts r).rawTag.extractLsb' (56 - 8 * k) 8 = r.rawTag[k]) ∧
    (∀ k (h : k < 10), (tagPorts r).fmt.extractLsb' (72 - 8 * k) 8 = r.formattedTag[k]) ∧
    (tagPorts r).err = 0#2 ∧ (tagPorts r).a = 0#8 ∧ (tagPorts r).b = 0#8 ∧ (tagPorts r).field = 0#2 ∧
    (tagPorts r).value = 0#64

/-- R68, R69, R70: the code and the context of each error on the ports; a two-byte field fills the top 16 bits of `out_value`, an
eight-byte field all of it; the record ports are 0. -/
def Obligations.ErrorPayloadPlaces : Prop :=
  (∀ e : DecodeError, (errPorts e).kind = 0b10#2 ∧ (errPorts e).version = 0#8 ∧ (errPorts e).rawTag = 0#64 ∧
    (errPorts e).fmt = 0#80) ∧
  (∀ n, (errPorts (.invalidLength n)).err = 0#2 ∧ (errPorts (.invalidLength n)).a = n ∧
    (errPorts (.invalidLength n)).b = 0#8 ∧ (errPorts (.invalidLength n)).field = 0#2 ∧
    (errPorts (.invalidLength n)).value = 0#64) ∧
  (∀ h t, (errPorts (.invalidMarker h t)).err = 1#2 ∧ (errPorts (.invalidMarker h t)).a = h ∧
    (errPorts (.invalidMarker h t)).b = t ∧ (errPorts (.invalidMarker h t)).field = 0#2 ∧
    (errPorts (.invalidMarker h t)).value = 0#64) ∧
  (∀ fld v, (errPorts (.invalidHex fld v)).err = 2#2 ∧ (errPorts (.invalidHex fld v)).a = 0#8 ∧
    (errPorts (.invalidHex fld v)).b = 0#8 ∧
    (errPorts (.invalidHex fld v)).field = (match fld with | .version => 0#2 | .tag => 1#2 | .checksum => 2#2)) ∧
  (∀ fld (x y : Byte), (errPorts (.invalidHex fld [x, y])).value = x ++ y ++ 0#48) ∧
  (∀ fld (v : Vector Byte 8) k (h : k < 8),
    (errPorts (.invalidHex fld v.toList)).value.extractLsb' (56 - 8 * k) 8 = v[k]) ∧
  (∀ c x, (errPorts (.checksum c x)).err = 3#2 ∧ (errPorts (.checksum c x)).a = c ∧ (errPorts (.checksum c x)).b = x ∧
    (errPorts (.checksum c x)).field = 0#2 ∧ (errPorts (.checksum c x)).value = 0#64)

/-! ## Invariants and runs -/

/-- The launch state meets the invariant (R22, R28, R32). -/
def Obligations.LaunchStateMeetsTheInvariant : Prop := State.reset.Inv

/-- Every step keeps the invariant (R22, R28, and the buffer's canonical form). -/
def Obligations.EveryStepKeepsTheInvariant : Prop := ∀ s t : State, s.Inv → step s = .next t → t.Inv

/-- From every state that meets the invariant, whatever the environment presents, the run goes on for ever (R63, R100). -/
def Obligations.InvariantStatesNeverStop : Prop := ∀ s : State, s.Inv → s.Safe

/-- R28 (which the spec derives): in ASM, however the bytes were spread over the steps, the fragment holds the marker and then
the bytes presented since, in arrival order, and the count is their number; no step of the assembly has reported anything. -/
def Obligations.FragmentHoldsTheBytesInArrivalOrder : Prop :=
  ∀ (s : State) (xs rest : List Input), s.phase = .scan → (∀ x ∈ xs, x.abandons = false) →
    (presentedBytes xs).length ≤ 12 →
    ∃ t, stateAfter (1 + xs.length) (s.withInputs (byteLine 0x02#8 :: xs ++ rest)) = some t ∧ t.phase = .asm ∧
      t.cnt.toNat = (presentedBytes xs).length ∧ t.inputs = rest ∧ t.fb.read 0 = some 0x02#8 ∧
      (∀ j (h : j < (presentedBytes xs).length), t.fb.read (1 + j) = some (presentedBytes xs)[j]) ∧
      observation (1 + xs.length) (s.withInputs (byteLine 0x02#8 :: xs ++ rest)) = []

/-- R29 (which the spec derives): no output depends on a byte of `fb` that the current assembly has not written: two states that
differ at most there (and in the outputs of the step before) give the same outputs for ever. -/
def Obligations.UnwrittenBytesAreUnobservable : Prop :=
  ∀ s t : State, s.agree t → ∀ n, outputs n s = outputs n t

/-- R114 (which the spec derives): a TAG or ERR is emitted in step t exactly when an earlier step accepted a marker and the
steps since hold exactly 13 BYTE events, the last in step t, and no TIMEOUT, EOS or reset; and it reports the marker followed by
those 13 bytes. -/
def Obligations.FramesCompleteExactlyAfterThirteenBytes : Prop :=
  ∀ (s : State) (t : Nat) (st st' : State), s.phase ≠ .asm → stateAfter t s = some st → step st = .next st' →
    ((st'.out.kind = 0b01#2 ∨ st'.out.kind = 0b10#2) ↔
      ∃ u su, u < t ∧ stateAfter u s = some su ∧ su.phase = .scan ∧ (s.inputAt u).byte? = some 0x02#8 ∧
        (∀ x ∈ s.inputsAfter u t, x.abandons = false) ∧ (presentedBytes (s.inputsAfter u t)).length = 13 ∧
        ((s.inputAt t).byte?).isSome) ∧
    (∀ u su, u < t → stateAfter u s = some su → su.phase = .scan → (s.inputAt u).byte? = some 0x02#8 →
      (∀ x ∈ s.inputsAfter u t, x.abandons = false) → (presentedBytes (s.inputsAfter u t)).length = 13 →
      ((s.inputAt t).byte?).isSome →
      ∃ f : RawFrame, f.toList = 0x02#8 :: presentedBytes (s.inputsAfter u t) ∧ st'.out = reportPorts f)

/-- R115 (which the spec derives), first half: an incomplete frame ended by a TIMEOUT before the next marker leaves no trace:
after any noise, the next complete frame, its bytes spread over the steps in any way, is reported alone. -/
def Obligations.FrameAfterATimeoutIsDecodedAlone : Prop :=
  ∀ (s : State) (frag noise xs : List Input) (f : RawFrame), s.phase = .scan →
    (∀ x ∈ frag, x.abandons = false) → (presentedBytes frag).length < 13 →
    (∀ x ∈ noise, x.abandons = false ∧ x.byte? ≠ some 0x02#8) →
    (∀ x ∈ xs, x.abandons = false) → f.toList = 0x02#8 :: presentedBytes xs →
    observation (frag.length + noise.length + xs.length + 3)
      (s.withInputs (byteLine 0x02#8 :: frag ++ timeoutLine :: noise ++ byteLine 0x02#8 :: xs)) = [reportPorts f]

/-- R115 (which the spec derives), second half (90_conflicts.md C4): with no TIMEOUT between, an incomplete frame is filled with
the first bytes of the frame that follows, the mixed frame is reported, and the rest of the second frame, where it holds no
marker, is discarded. -/
def Obligations.TruncatedFrameAbsorbsTheNext : Prop :=
  ∀ (s : State) (frag : List Byte) (f g : RawFrame), s.phase = .scan → frag.length < 13 →
    g.toList = 0x02#8 :: frag ++ f.toList.take (13 - frag.length) →
    (∀ b ∈ f.toList.drop (13 - frag.length), b ≠ 0x02#8) →
    observation (15 + frag.length) (s.withInputs (byteLine 0x02#8 :: byteLines frag ++ byteLines f.toList)) =
      [reportPorts g] ∧
    ∃ t, stateAfter (15 + frag.length) (s.withInputs (byteLine 0x02#8 :: byteLines frag ++ byteLines f.toList)) = some t ∧
      t.phase = .scan ∧ t.cnt = 0#4

/-- R248 (which the spec derives): frames may follow each other with no step between, and each is reported in the step of its
own last byte, whatever the one before it was. -/
def Obligations.BackToBackFramesAreEachReported : Prop :=
  ∀ (s : State) (f g : RawFrame), s.phase = .scan → f[0] = 0x02#8 → g[0] = 0x02#8 →
    outputs 28 (s.withInputs (frameLines f ++ frameLines g)) =
      List.replicate 13 OutPorts.zero ++ reportPorts f :: List.replicate 13 OutPorts.zero ++ [reportPorts g]

/-- R76, R141: the frame that GOODFRAME sends, through the whole block: the 14 steps report one TAG, with the tag as sent, the
version's value and the tag's decimal rendering. -/
def Obligations.GoodFrameIsReportedAsItsTag : Prop :=
  ∀ (s : State) (v : Vector Byte 2) (t : Vector Byte 8) (f : RawFrame), s.phase = .scan → goodFrame v t = some f →
    ∃ r, observation 14 (s.withInputs (frameLines f)) = [tagPorts r] ∧ r.rawTag = t ∧
      hex2 v[0] v[1] = some r.protocolVersion ∧ ∃ n, hex8 t = some n ∧ r.formattedTag = dec10 n

/-- R101, R247: from ENDED, while no reset is presented, nothing is observed, and phase, count and buffer stay as they are. -/
def Obligations.EndedIsFinalUntilReset : Prop :=
  ∀ (s : State) (n : Nat), s.phase = .ended → (∀ x ∈ s.inputs, x.resets = false) →
    observation n s = [] ∧ ∃ t, stateAfter n s = some t ∧ t.phase = .ended ∧ t.cnt = s.cnt ∧ t.fb = s.fb

/-- R109, R116: while no reset is presented, every output after an END is NONE, so END is emitted at most once. -/
def Obligations.NothingIsEmittedAfterEnd : Prop :=
  ∀ (s : State) (n j k : Nat) (o o' : OutPorts), (∀ x ∈ s.inputs, x.resets = false) →
    (outputs n s)[j]? = some o → o.kind = 0b11#2 → j < k → (outputs n s)[k]? = some o' → o' = OutPorts.zero

/-- R215, R216: the completing step leaves SCAN and count 0 whether the decode succeeds or fails, and whatever the frame was,
every later output is the same: an error in one frame cannot affect a later one. -/
def Obligations.AFrameLeavesNoTraceInLaterOutputs : Prop :=
  ∀ (s t s' t' : State) (b c : Byte), s.phase = .asm → t.phase = .asm → s.cnt.toNat = 12 → t.cnt.toNat = 12 →
    s.inputs = t.inputs → exec (.byte b) s = .next s' → exec (.byte c) t = .next t' →
    s'.phase = .scan ∧ s'.cnt = 0#4 ∧ ∀ n, outputs n s' = outputs n t'

/-! ## Instances -/

/-- R53, R223: an instance's step is the step of its own state and leaves every other instance as it was. -/
def Obligations.InstancesShareNoState : Prop :=
  ∀ (sys : System) (k : Nat) (s t : State), sys.blocks[k]? = some s → step s = .next t →
    ∃ sys', sys.stepAt k = .next sys' ∧ sys'.blocks[k]? = some t ∧ sys'.blocks.length = sys.blocks.length ∧
      ∀ j, j ≠ k → sys'.blocks[j]? = sys.blocks[j]?

/-- R223: the order in which two instances step does not matter. -/
def Obligations.InstanceStepsCommute : Prop :=
  ∀ (sys a b : System) (j k : Nat), j ≠ k → sys.stepAt j = .next a → sys.stepAt k = .next b →
    ∃ c, a.stepAt k = .next c ∧ b.stepAt j = .next c
end

