-- ==== Sys2Proof/Laws/Bits.lean ====
section
/-! SUPPORT. The laws of packing bytes into a word: each byte is found again at its own place, and a frame survives the trip
through a decoder-unit request. -/

namespace Sys2Proof

theorem beNat_lt : ∀ bs : List Byte, beNat bs < 256 ^ bs.length
  | [] => by simp [beNat]
  | b :: bs => by
    have ih := beNat_lt bs
    have hb := b.isLt
    simp only [beNat, List.length_cons, Nat.pow_succ]
    calc b.toNat * 256 ^ bs.length + beNat bs < b.toNat * 256 ^ bs.length + 256 ^ bs.length := by omega
      _ = (b.toNat + 1) * 256 ^ bs.length := by ring
      _ ≤ 256 * 256 ^ bs.length := Nat.mul_le_mul_right _ (by omega)
      _ = 256 ^ bs.length * 256 := Nat.mul_comm _ _

/-- Byte `k` of the string is digit `length - 1 - k` of the number in base 256. -/
theorem beNat_byte : ∀ (bs : List Byte) (k : Nat) (h : k < bs.length),
    beNat bs / 256 ^ (bs.length - 1 - k) % 256 = bs[k].toNat
  | b :: bs, 0, _ => by
    have hlt := beNat_lt bs
    have hb := b.isLt
    simp only [beNat, List.length_cons, Nat.add_sub_cancel, Nat.sub_zero, List.getElem_cons_zero]
    rw [Nat.mul_comm, Nat.mul_add_div (by positivity), Nat.div_eq_of_lt hlt]
    omega
  | b :: bs, k + 1, h => by
    have hk : k < bs.length := by simpa using h
    have ih := beNat_byte bs k hk
    simp only [beNat, List.length_cons, List.getElem_cons_succ]
    have he : bs.length + 1 - 1 - (k + 1) = bs.length - 1 - k := by omega
    rw [he, ← ih]
    have hsplit : 256 ^ bs.length = 256 ^ (bs.length - 1 - k) * (256 * 256 ^ k) := by
      rw [← Nat.pow_succ', ← Nat.pow_add]; congr 1; omega
    rw [hsplit, show b.toNat * (256 ^ (bs.length - 1 - k) * (256 * 256 ^ k)) + beNat bs
        = 256 ^ (bs.length - 1 - k) * (256 * (256 ^ k * b.toNat)) + beNat bs by ring,
      Nat.mul_add_div (by positivity), Nat.mul_add_mod]

/-- Byte `k` of a packed string stands `k` byte positions below the top. -/
theorem packBytes_byte {w : Nat} (bs : List Byte) (hw : w = 8 * bs.length) (k : Nat) (h : k < bs.length) :
    (packBytes w bs).extractLsb' (w - 8 - 8 * k) 8 = bs[k] := by
  apply BitVec.eq_of_toNat_eq
  have hlt := beNat_lt bs
  have hpow : (2 : Nat) ^ w = 256 ^ bs.length := by rw [hw, Nat.pow_mul]
  have hsh : w - 8 - 8 * k = 8 * (bs.length - 1 - k) := by omega
  rw [BitVec.extractLsb'_toNat, packBytes, BitVec.toNat_ofNat, hpow, Nat.mod_eq_of_lt hlt, hsh,
    Nat.shiftRight_eq_div_pow, Nat.pow_mul, ← beNat_byte bs k h]

/-- Two request words with the same bytes are the same word. -/
theorem eq_of_requestBytes {v w : BitVec 112} (h : ∀ k < 14, requestByte v k = requestByte w k) : v = w := by
  apply BitVec.eq_of_getLsbD_eq
  intro j hj
  have := congrArg (fun b => b.getLsbD (j % 8)) (h (13 - j / 8) (by omega))
  simp only [requestByte, BitVec.getLsbD_extractLsb'] at this
  have hj' : 104 - 8 * (13 - j / 8) + j % 8 = j := by omega
  rw [hj'] at this
  simpa [show j % 8 < 8 by omega] using this

/-- A request's bytes, packed again, are the request's word. -/
@[simp] theorem packBytes_unpackFrame (w : BitVec 112) : packBytes 112 (unpackFrame w).toList = w := by
  apply eq_of_requestBytes
  intro k hk
  have hlen : (unpackFrame w).toList.length = 14 := by simp
  have h := packBytes_byte (unpackFrame w).toList (w := 112) (by rw [hlen]) k (by rw [hlen]; exact hk)
  rw [requestByte, show 104 - 8 * k = 112 - 8 - 8 * k by omega, h]
  simp [unpackFrame]

/-- A frame packed into a request is read again byte for byte (R65). -/
@[simp] theorem unpackFrame_packBytes (f : RawFrame) : unpackFrame (packBytes 112 f.toList) = f := by
  apply Vector.ext
  intro i hi
  have hlen : f.toList.length = 14 := by simp
  have := packBytes_byte f.toList (w := 112) (by rw [hlen]) i (by rw [hlen]; exact hi)
  simpa [unpackFrame, requestByte] using this

end Sys2Proof
end

