-- ==== Sys2Proof/Laws/Operands.lean ====
section
/-! SUPPORT. What the digit decoders and the checks of the pipeline can answer, said once for each. -/

namespace Sys2Proof.Machine

/-! ## Digits -/

theorem hexval_lt {b : Byte} {d : Nat} (h : hexval b = some d) : d < 16 := by
  unfold hexval at h
  split at h
  · simp at h; omega
  · split at h
    · simp at h; omega
    · split at h
      · simp at h; omega
      · simp at h

/-- The markers are no hex digits (R74). -/
@[simp] theorem hexval_head : hexval Config.head = none := by decide
@[simp] theorem hexval_tail : hexval Config.tail = none := by decide

theorem hex2_eq_some {hi lo v : Byte} :
    hex2 hi lo = some v ↔ ∃ h l, hexval hi = some h ∧ hexval lo = some l ∧ BitVec.ofNat 8 (16 * h + l) = v := by
  simp [hex2, Option.bind_eq_some_iff]

theorem hex2_eq_none {hi lo : Byte} : hex2 hi lo = none ↔ hexval hi = none ∨ hexval lo = none := by
  cases h : hexval hi <;> cases h' : hexval lo <;> simp [hex2, h, h']

/-- A pair's value is exactly 16 times the first digit plus the second: it cannot overflow (R151). -/
theorem hex2_toNat {hi lo v : Byte} {h l : Nat} (hh : hexval hi = some h) (hl : hexval lo = some l)
    (hv : hex2 hi lo = some v) : v.toNat = 16 * h + l := by
  obtain ⟨h', l', e1, e2, rfl⟩ := hex2_eq_some.1 hv
  rw [hh, Option.some.injEq] at e1
  rw [hl, Option.some.injEq] at e2
  have := hexval_lt hh
  have := hexval_lt hl
  subst e1 e2
  rw [BitVec.toNat_ofNat, Nat.mod_eq_of_lt (by omega)]

theorem hexDigits_eq_none : ∀ {bs : List Byte}, hexDigits bs = none ↔ ∃ b ∈ bs, hexval b = none
  | [] => by simp [hexDigits]
  | b :: bs => by
    have ih := @hexDigits_eq_none bs
    cases h : hexval b <;> cases h' : hexDigits bs <;> simp_all [hexDigits]

theorem hexDigits_length : ∀ {bs : List Byte} {ds : List Nat}, hexDigits bs = some ds → ds.length = bs.length
  | [], ds, h => by simp only [hexDigits, Option.some.injEq] at h; subst h; simp
  | b :: bs, ds, h => by
    obtain ⟨d, -, e, he, rfl⟩ := by simpa [hexDigits, Option.bind_eq_some_iff] using h
    simp [hexDigits_length he]

theorem hexDigits_lt : ∀ {bs : List Byte} {ds : List Nat}, hexDigits bs = some ds → ∀ d ∈ ds, d < 16
  | [], ds, h => by simp only [hexDigits, Option.some.injEq] at h; subst h; simp
  | b :: bs, ds, h => by
    obtain ⟨d, hd, e, he, rfl⟩ := by simpa [hexDigits, Option.bind_eq_some_iff] using h
    simpa [hexval_lt hd] using hexDigits_lt he

theorem hexNumber_lt : ∀ {ds : List Nat}, (∀ d ∈ ds, d < 16) → hexNumber ds < 16 ^ ds.length
  | [], _ => by simp [hexNumber]
  | d :: ds, h => by
    have hd := h d (by simp)
    have ih := hexNumber_lt (ds := ds) fun e he => h e (by simp [he])
    simp only [hexNumber, List.length_cons, Nat.pow_succ]
    calc d * 16 ^ ds.length + hexNumber ds < (d + 1) * 16 ^ ds.length := by rw [Nat.add_mul]; omega
      _ ≤ 16 * 16 ^ ds.length := Nat.mul_le_mul_right _ (by omega)
      _ = 16 ^ ds.length * 16 := Nat.mul_comm _ _

/-- The tag's value is exactly the number its digits stand for: it fits in 32 bits (R156). -/
theorem hex8_toNat {s : Vector Byte 8} {ds : List Nat} {v : BitVec 32} (hd : hexDigits s.toList = some ds)
    (hv : hex8 s = some v) : v.toNat = hexNumber ds := by
  simp only [hex8, hd, Option.bind_eq_bind, Option.bind_some, Option.pure_def, Option.some.injEq] at hv
  have hlt := hexNumber_lt (hexDigits_lt hd)
  rw [hexDigits_length hd] at hlt
  rw [← hv, BitVec.toNat_ofNat, Nat.mod_eq_of_lt (by simpa using hlt)]

theorem hex8_eq_none {s : Vector Byte 8} : hex8 s = none ↔ ∃ b ∈ s.toList, hexval b = none := by
  rw [← hexDigits_eq_none]
  cases h : hexDigits s.toList <;> simp [hex8, h]

/-! ## The steps of the pipeline -/

theorem checksumTokens_eq_some {f : RawFrame} {t : Vector Byte 5} :
    checksumTokens f = some t ↔ ∃ t0 t1 t2 t3 t4, hex2 f[1] f[2] = some t0 ∧ hex2 f[3] f[4] = some t1 ∧
      hex2 f[5] f[6] = some t2 ∧ hex2 f[7] f[8] = some t3 ∧ hex2 f[9] f[10] = some t4 ∧ #v[t0, t1, t2, t3, t4] = t := by
  simp [checksumTokens, Option.bind_eq_some_iff]

theorem checksumTokens_eq_none {f : RawFrame} :
    checksumTokens f = none ↔ hex2 f[1] f[2] = none ∨ hex2 f[3] f[4] = none ∨ hex2 f[5] f[6] = none ∨
      hex2 f[7] f[8] = none ∨ hex2 f[9] f[10] = none := by
  cases h1 : hex2 f[1] f[2] <;> cases h2 : hex2 f[3] f[4] <;> cases h3 : hex2 f[5] f[6] <;>
    cases h4 : hex2 f[7] f[8] <;> cases h5 : hex2 f[9] f[10] <;> simp [checksumTokens, h1, h2, h3, h4, h5]

/-- The whole pipeline as one chain of checks (R130). -/
theorem decodeFrame_eq (len : Byte) (f : RawFrame) :
    decodeFrame len f =
      if len ≠ 14#8 then .error (.invalidLength len)
      else if headByte f ≠ Config.head ∨ tailByte f ≠ Config.tail then .error (.invalidMarker (headByte f) (tailByte f))
      else match hex2 f[1] f[2] with
        | none => .error (.invalidHex .version [f[1], f[2]])
        | some version =>
          match hex2 f[11] f[12] with
          | none => .error (.invalidHex .checksum [f[11], f[12]])
          | some sent =>
            match checksumTokens f with
            | none => .error (.invalidHex .tag (rawTag f).toList)
            | some t =>
              if computedChecksum t ≠ sent then .error (.checksum (computedChecksum t) sent)
              else match hex8 (rawTag f) with
                | none => .error (.invalidHex .tag (rawTag f).toList)
                | some value => .ok ⟨version, rawTag f, dec10 value⟩ := by
  by_cases hl : len = 14#8
  · by_cases hm : headByte f ≠ Config.head ∨ tailByte f ≠ Config.tail
    · simp [decodeFrame, checkLength, checkMarkers, bind, Except.bind, hl, hm]
    · have hm' : checkMarkers f = .ok () := if_neg hm
      rw [if_neg (not_not.2 hl), if_neg hm]
      cases h1 : hex2 f[1] f[2] with
      | none =>
        simp [decodeFrame, checkLength, parseVersion, parseField, versionField, bind, Except.bind, hl, hm', h1]
      | some version =>
        cases h2 : hex2 f[11] f[12] with
        | none =>
          simp [decodeFrame, checkLength, parseVersion, parseChecksum, parseField, versionField, checksumField, bind,
            Except.bind, hl, hm', h1, h2]
        | some sent =>
          cases h3 : checksumTokens f with
          | none =>
            simp [decodeFrame, checkLength, parseVersion, parseChecksum, parseField, versionField, checksumField,
              parseTokens, bind, Except.bind, hl, hm', h1, h2, h3]
          | some t =>
            by_cases hc : computedChecksum t = sent <;> cases h4 : hex8 (rawTag f) <;>
              simp [decodeFrame, checkLength, parseVersion, parseChecksum, parseField, versionField, checksumField,
                parseTokens, compareChecksum, formatTag, bind, Except.bind, pure, Except.pure, hl, hm', h1, h2, h3, hc, h4]
  · simp [decodeFrame, checkLength, bind, Except.bind, hl]

end Sys2Proof.Machine
end

