-- ==== Sys2Proof/Laws/Decoder.lean ====
section
/-! SUPPORT. What a successful decode says of its frame, and how digits that change show in the values made of them. -/

namespace Sys2Proof.Machine

/-! ## Pairs and strings of digits -/

/-- Pairs read alike have digits of the same values. -/
theorem hex2_inj {a b c d v : Byte} (h : hex2 a b = some v) (h' : hex2 c d = some v) : hexval a = hexval c ∧ hexval b = hexval d := by
  obtain ⟨x, y, hx, hy, -⟩ := hex2_eq_some.1 h
  obtain ⟨x', y', hx', hy', -⟩ := hex2_eq_some.1 h'
  have e := hex2_toNat hx hy h
  rw [hex2_toNat hx' hy' h'] at e
  have := hexval_lt hy
  have := hexval_lt hy'
  rw [hx, hx', hy, hy']
  exact ⟨congrArg some (by omega), congrArg some (by omega)⟩

theorem hex2_congr {a b c d : Byte} (h : hexval a = hexval c) (h' : hexval b = hexval d) : hex2 a b = hex2 c d := by
  simp [hex2, h, h']

/-- Strings whose bytes have the same values, in order, have the same digits. -/
theorem hexDigits_congr : ∀ {bs cs : List Byte}, bs.map hexval = cs.map hexval → hexDigits bs = hexDigits cs
  | [], [], _ => rfl
  | [], c :: cs, h => by simp at h
  | b :: bs, [], h => by simp at h
  | b :: bs, c :: cs, h => by
    simp only [List.map_cons, List.cons.injEq] at h
    simp [hexDigits, h.1, hexDigits_congr h.2]

theorem hex8_congr {s t : Vector Byte 8} (h : s.toList.map hexval = t.toList.map hexval) : hex8 s = hex8 t := by
  simp [hex8, hexDigits_congr h]

/-! ## The pipeline -/

/-- Everything that holds of a frame that decodes (R130). -/
theorem decodeFrame_ok {len : Byte} {f : RawFrame} {r : TagRecord} (h : decodeFrame len f = .ok r) :
    len = 14#8 ∧ headByte f = Config.head ∧ tailByte f = Config.tail ∧
    ∃ t0 t1 t2 t3 t4 value, hex2 f[1] f[2] = some t0 ∧ hex2 f[3] f[4] = some t1 ∧ hex2 f[5] f[6] = some t2 ∧
      hex2 f[7] f[8] = some t3 ∧ hex2 f[9] f[10] = some t4 ∧ hex2 f[11] f[12] = some (t0 ^^^ t1 ^^^ t2 ^^^ t3 ^^^ t4) ∧
      hex8 (rawTag f) = some value ∧ r = ⟨t0, rawTag f, dec10 value⟩ := by
  rw [decodeFrame_eq] at h
  by_cases hl : len = 14#8
  · by_cases hm : headByte f ≠ Config.head ∨ tailByte f ≠ Config.tail
    · simp [hl, hm] at h
    · rw [if_neg (not_not.2 hl), if_neg hm] at h
      cases h1 : hex2 f[1] f[2] with
      | none => simp [h1] at h
      | some version =>
        cases h2 : hex2 f[11] f[12] with
        | none => simp [h1, h2] at h
        | some sent =>
          cases h3 : checksumTokens f with
          | none => simp [h1, h2, h3] at h
          | some t =>
            cases h4 : hex8 (rawTag f) with
            | none => by_cases hc : computedChecksum t = sent <;> simp [h1, h2, h3, h4, hc] at h
            | some value =>
              by_cases hc : computedChecksum t = sent
              · obtain ⟨t0, t1, t2, t3, t4, e0, e1, e2, e3, e4, rfl⟩ := checksumTokens_eq_some.1 h3
                simp only [h1, h2, h3, h4, hc, ne_eq, not_true_eq_false, if_false, Except.ok.injEq] at h
                rw [h1] at e0
                cases e0
                refine ⟨hl, by_contra fun hh => hm (.inl hh), by_contra fun hh => hm (.inr hh), ?_⟩
                exact ⟨version, t1, t2, t3, t4, value, rfl, e1, e2, e3, e4, congrArg some hc.symm, rfl, h.symm⟩
              · simp [h1, h2, h3, hc] at h
  · simp [hl] at h

/-- A decode result always stands on the ports as a TAG or an ERR (R140). -/
theorem ofResult_kind (r : Except DecodeError TagRecord) :
    (Output.ofResult r).toPorts.kind = kindTag ∨ (Output.ofResult r).toPorts.kind = kindErr := by
  cases r with
  | ok r => exact .inl rfl
  | error e => cases e <;> exact .inr rfl

end Sys2Proof.Machine
end

