-- ==== Sys2Proof/Laws/State.lean ====
section
/-! SUPPORT. What every named update of the state does to every field: one lemma per field per update, so that no later proof
unfolds a record update. -/

namespace Sys2Proof.Machine

variable (s : State)

@[simp] theorem toPorts_none : Output.none.toPorts = OutPorts.zero := rfl

/-! ### `memWrite` -/

@[simp] theorem memWrite_phase (a : Nat) (b : Byte) : (memWrite a b s).phase = s.phase := rfl
@[simp] theorem memWrite_cnt (a : Nat) (b : Byte) : (memWrite a b s).cnt = s.cnt := rfl
@[simp] theorem memWrite_fb (a : Nat) (b : Byte) : (memWrite a b s).fb = s.fb.write a b := rfl
@[simp] theorem memWrite_fbEpoch (a : Nat) (b : Byte) : (memWrite a b s).fbEpoch = s.fbEpoch := rfl
@[simp] theorem memWrite_inputs (a : Nat) (b : Byte) : (memWrite a b s).inputs = s.inputs := rfl
@[simp] theorem memWrite_out (a : Nat) (b : Byte) : (memWrite a b s).out = s.out := rfl
@[simp] theorem memWrite_duOut (a : Nat) (b : Byte) : (memWrite a b s).duOut = s.duOut := rfl

/-! ### `emit` -/

@[simp] theorem emit_phase (o : Output) : (emit o s).phase = s.phase := rfl
@[simp] theorem emit_cnt (o : Output) : (emit o s).cnt = s.cnt := rfl
@[simp] theorem emit_fb (o : Output) : (emit o s).fb = s.fb := rfl
@[simp] theorem emit_fbEpoch (o : Output) : (emit o s).fbEpoch = s.fbEpoch := rfl
@[simp] theorem emit_inputs (o : Output) : (emit o s).inputs = s.inputs := rfl
@[simp] theorem emit_out (o : Output) : (emit o s).out = o.toPorts := rfl
@[simp] theorem emit_duOut (o : Output) : (emit o s).duOut = none := rfl

/-! ### `emitUnit` -/

@[simp] theorem emitUnit_phase (o : Output) : (emitUnit o s).phase = s.phase := rfl
@[simp] theorem emitUnit_cnt (o : Output) : (emitUnit o s).cnt = s.cnt := rfl
@[simp] theorem emitUnit_fb (o : Output) : (emitUnit o s).fb = s.fb := rfl
@[simp] theorem emitUnit_fbEpoch (o : Output) : (emitUnit o s).fbEpoch = s.fbEpoch := rfl
@[simp] theorem emitUnit_inputs (o : Output) : (emitUnit o s).inputs = s.inputs := rfl
@[simp] theorem emitUnit_out (o : Output) : (emitUnit o s).out = OutPorts.zero := rfl
@[simp] theorem emitUnit_duOut (o : Output) : (emitUnit o s).duOut = some o.toPorts := rfl

/-! ### `leaveAssembly` -/

@[simp] theorem leaveAssembly_phase (p : Phase) : (leaveAssembly p s).phase = p := rfl
@[simp] theorem leaveAssembly_cnt (p : Phase) : (leaveAssembly p s).cnt = 0 := rfl
@[simp] theorem leaveAssembly_fb (p : Phase) : (leaveAssembly p s).fb = s.fb := rfl
@[simp] theorem leaveAssembly_fbEpoch (p : Phase) : (leaveAssembly p s).fbEpoch = s.fbEpoch := rfl
@[simp] theorem leaveAssembly_inputs (p : Phase) : (leaveAssembly p s).inputs = s.inputs := rfl
@[simp] theorem leaveAssembly_out (p : Phase) : (leaveAssembly p s).out = s.out := rfl
@[simp] theorem leaveAssembly_duOut (p : Phase) : (leaveAssembly p s).duOut = s.duOut := rfl

/-! ### `acceptMarker` -/

@[simp] theorem acceptMarker_phase : (acceptMarker s).phase = .asm := rfl
@[simp] theorem acceptMarker_cnt : (acceptMarker s).cnt = 0 := rfl
@[simp] theorem acceptMarker_fb : (acceptMarker s).fb = s.fb.write 0 Config.head := rfl
@[simp] theorem acceptMarker_fbEpoch : (acceptMarker s).fbEpoch = s.fbEpoch := rfl
@[simp] theorem acceptMarker_inputs : (acceptMarker s).inputs = s.inputs := rfl
@[simp] theorem acceptMarker_out : (acceptMarker s).out = s.out := rfl
@[simp] theorem acceptMarker_duOut : (acceptMarker s).duOut = s.duOut := rfl

/-! ### `storePayload` -/

@[simp] theorem storePayload_phase (b : Byte) : (storePayload b s).phase = s.phase := rfl
@[simp] theorem storePayload_cnt (b : Byte) : (storePayload b s).cnt = s.cnt + 1 := rfl
@[simp] theorem storePayload_fb (b : Byte) : (storePayload b s).fb = s.fb.write (1 + s.cnt.toNat) b := rfl
@[simp] theorem storePayload_fbEpoch (b : Byte) : (storePayload b s).fbEpoch = s.fbEpoch := rfl
@[simp] theorem storePayload_inputs (b : Byte) : (storePayload b s).inputs = s.inputs := rfl
@[simp] theorem storePayload_out (b : Byte) : (storePayload b s).out = s.out := rfl
@[simp] theorem storePayload_duOut (b : Byte) : (storePayload b s).duOut = s.duOut := rfl

/-! ### `reportResult` -/

@[simp] theorem reportResult_phase (r : Except DecodeError TagRecord) : (reportResult r s).phase = .scan := rfl
@[simp] theorem reportResult_cnt (r : Except DecodeError TagRecord) : (reportResult r s).cnt = 0 := rfl
@[simp] theorem reportResult_fb (r : Except DecodeError TagRecord) : (reportResult r s).fb = s.fb := rfl
@[simp] theorem reportResult_fbEpoch (r : Except DecodeError TagRecord) : (reportResult r s).fbEpoch = s.fbEpoch := rfl
@[simp] theorem reportResult_inputs (r : Except DecodeError TagRecord) : (reportResult r s).inputs = s.inputs := rfl
@[simp] theorem reportResult_out (r : Except DecodeError TagRecord) : (reportResult r s).out = (Output.ofResult r).toPorts := rfl
@[simp] theorem reportResult_duOut (r : Except DecodeError TagRecord) : (reportResult r s).duOut = none := rfl

/-! ### `completeFrame` -/

@[simp] theorem completeFrame_phase (b : Byte) : (completeFrame b s).phase = .scan := rfl
@[simp] theorem completeFrame_cnt (b : Byte) : (completeFrame b s).cnt = 0 := rfl
@[simp] theorem completeFrame_fb (b : Byte) : (completeFrame b s).fb = s.fb.write 13 b := rfl
@[simp] theorem completeFrame_fbEpoch (b : Byte) : (completeFrame b s).fbEpoch = s.fbEpoch := rfl
@[simp] theorem completeFrame_inputs (b : Byte) : (completeFrame b s).inputs = s.inputs := rfl
@[simp] theorem completeFrame_out (b : Byte) : (completeFrame b s).out = (Output.ofResult (decodeFrame 14#8 (memWrite 13 b s).snapshot)).toPorts := rfl
@[simp] theorem completeFrame_duOut (b : Byte) : (completeFrame b s).duOut = none := rfl

/-! ### `takeReset` -/

@[simp] theorem takeReset_phase : (takeReset s).phase = .scan := rfl
@[simp] theorem takeReset_cnt : (takeReset s).cnt = 0 := rfl
@[simp] theorem takeReset_fb : (takeReset s).fb = ⟨[]⟩ := rfl
@[simp] theorem takeReset_fbEpoch : (takeReset s).fbEpoch = s.fbEpoch + 1 := rfl
@[simp] theorem takeReset_inputs : (takeReset s).inputs = s.inputs := rfl
@[simp] theorem takeReset_out : (takeReset s).out = OutPorts.zero := rfl
@[simp] theorem takeReset_duOut : (takeReset s).duOut = none := rfl

/-! ### `consume` -/

@[simp] theorem consume_phase : (consume s).phase = s.phase := rfl
@[simp] theorem consume_cnt : (consume s).cnt = s.cnt := rfl
@[simp] theorem consume_fb : (consume s).fb = s.fb := rfl
@[simp] theorem consume_fbEpoch : (consume s).fbEpoch = s.fbEpoch := rfl
@[simp] theorem consume_inputs : (consume s).inputs = s.inputs.tail := rfl
@[simp] theorem consume_out : (consume s).out = s.out := rfl
@[simp] theorem consume_duOut : (consume s).duOut = s.duOut := rfl

/-! ### `present` -/

@[simp] theorem present_phase (p : PortWord) : (present p s).phase = s.phase := rfl
@[simp] theorem present_cnt (p : PortWord) : (present p s).cnt = s.cnt := rfl
@[simp] theorem present_fb (p : PortWord) : (present p s).fb = s.fb := rfl
@[simp] theorem present_fbEpoch (p : PortWord) : (present p s).fbEpoch = s.fbEpoch := rfl
@[simp] theorem present_inputs (p : PortWord) : (present p s).inputs = Input.ofPortWord p :: s.inputs := rfl
@[simp] theorem present_out (p : PortWord) : (present p s).out = s.out := rfl
@[simp] theorem present_duOut (p : PortWord) : (present p s).duOut = s.duOut := rfl

/-! ### `withInputs` -/

@[simp] theorem withInputs_phase (xs : List Input) : (s.withInputs xs).phase = s.phase := rfl
@[simp] theorem withInputs_cnt (xs : List Input) : (s.withInputs xs).cnt = s.cnt := rfl
@[simp] theorem withInputs_fb (xs : List Input) : (s.withInputs xs).fb = s.fb := rfl
@[simp] theorem withInputs_fbEpoch (xs : List Input) : (s.withInputs xs).fbEpoch = s.fbEpoch := rfl
@[simp] theorem withInputs_inputs (xs : List Input) : (s.withInputs xs).inputs = xs := rfl
@[simp] theorem withInputs_out (xs : List Input) : (s.withInputs xs).out = s.out := rfl
@[simp] theorem withInputs_duOut (xs : List Input) : (s.withInputs xs).duOut = s.duOut := rfl

end Sys2Proof.Machine
end

