-- ==== Sys2Proof/Laws/Exec.lean ====
section
/-! SUPPORT. What one instruction, and one step, can do: said once, for every later case analysis. -/

namespace Sys2Proof.Machine

/-- Everything an instruction that gives a next state can have done (R100 to R110, R138). -/
theorem exec_cases {i : Instr} {s t : State} (h : exec i s = .next t) :
    (t = emit .none s ∧ ((∃ d, i = .idle d) ∨ (s.phase = .ended ∧ ∀ len f, i ≠ .decode len f) ∨
      (s.phase = .scan ∧ ((∃ b, i = .byte b ∧ b ≠ Config.head) ∨ ∃ d, i = .timeout d)))) ∨
    (i = .byte Config.head ∧ s.phase = .scan ∧ t = emit .none (acceptMarker s)) ∨
    (∃ b, i = .byte b ∧ s.phase = .asm ∧ s.cnt.toNat < 12 ∧ t = emit .none (storePayload b s)) ∨
    (∃ b, i = .byte b ∧ s.phase = .asm ∧ s.cnt.toNat = 12 ∧ t = completeFrame b s) ∨
    (∃ d, i = .timeout d ∧ s.phase = .asm ∧ t = emit .none (leaveAssembly .scan s)) ∨
    (∃ d, i = .eos d ∧ s.phase ≠ .ended ∧ t = emit .ended (leaveAssembly .ended s)) ∨
    (∃ len f, i = .decode len f ∧ t = emitUnit (Output.ofResult (decodeFrame len f)) s) := by
  cases i with
  | idle d => simp only [exec, execIdle, Host.Outcome.next.injEq] at h; exact .inl ⟨h.symm, .inl ⟨d, rfl⟩⟩
  | byte b =>
    simp only [exec, execByte] at h
    cases hp : s.phase <;> simp only [hp] at h
    · by_cases hb : b = Config.head
      · simp only [hb, if_true, Host.Outcome.next.injEq] at h
        exact .inr (.inl ⟨by rw [hb], rfl, h.symm⟩)
      · simp only [hb, if_false, Host.Outcome.next.injEq] at h
        exact .inl ⟨h.symm, .inr (.inr ⟨rfl, .inl ⟨b, rfl, hb⟩⟩)⟩
    · split at h
      · rename_i hc
        exact .inr (.inr (.inl ⟨b, rfl, rfl, hc, (Host.Outcome.next.inj h).symm⟩))
      · split at h
        · rename_i hc
          exact .inr (.inr (.inr (.inl ⟨b, rfl, rfl, hc, (Host.Outcome.next.inj h).symm⟩)))
        · cases h
    · exact .inl ⟨(Host.Outcome.next.inj h).symm, .inr (.inl ⟨rfl, by simp⟩)⟩
  | timeout d =>
    simp only [exec, execTimeout] at h
    cases hp : s.phase <;> simp only [hp, Host.Outcome.next.injEq] at h
    · exact .inl ⟨h.symm, .inr (.inr ⟨rfl, .inr ⟨d, rfl⟩⟩)⟩
    · exact .inr (.inr (.inr (.inr (.inl ⟨d, rfl, rfl, h.symm⟩))))
    · exact .inl ⟨h.symm, .inr (.inl ⟨rfl, by simp⟩)⟩
  | eos d =>
    simp only [exec, execEos] at h
    cases hp : s.phase <;> simp only [hp, Host.Outcome.next.injEq] at h
    · exact .inr (.inr (.inr (.inr (.inr (.inl ⟨d, rfl, by simp, h.symm⟩)))))
    · exact .inr (.inr (.inr (.inr (.inr (.inl ⟨d, rfl, by simp, h.symm⟩)))))
    · exact .inl ⟨h.symm, .inr (.inl ⟨rfl, by simp⟩)⟩
  | decode len f =>
    simp only [exec, execDecode, Host.Outcome.next.injEq] at h
    exact .inr (.inr (.inr (.inr (.inr (.inr ⟨len, f, rfl, h.symm⟩)))))

/-- The one way an instruction stops: a BYTE in ASM with a count that R22 excludes. -/
theorem exec_stops {i : Instr} {s : State} (h : ∀ t, exec i s ≠ .next t) :
    ∃ b, i = .byte b ∧ s.phase = .asm ∧ 12 < s.cnt.toNat ∧ exec i s = .fault (.fbOffsetOutOfRange (1 + s.cnt.toNat)) := by
  cases i with
  | idle d => exact absurd rfl (h _)
  | decode len f => exact absurd rfl (h _)
  | timeout d => cases hp : s.phase <;> simp [exec, execTimeout, hp] at h
  | eos d => cases hp : s.phase <;> simp [exec, execEos, hp] at h
  | byte b =>
    simp only [exec, execByte] at h ⊢
    cases hp : s.phase <;> simp only [hp] at h ⊢
    · split at h <;> exact absurd rfl (h _)
    · split at h
      · exact absurd rfl (h _)
      · split at h
        · exact absurd rfl (h _)
        · rename_i h1 h2; exact ⟨b, rfl, trivial, by omega, by rw [if_neg h1, if_neg h2]⟩
    · exact absurd rfl (h _)

/-- Everything a step that gives a next state can have done: a reset, or the presented instruction (R100, R240). -/
theorem step_cases {s t : State} (h : step s = .next t) :
    (fetch s = none ∧ t = takeReset (consume s)) ∨ ∃ i, fetch s = some i ∧ exec i (consume s) = .next t := by
  unfold step at h
  cases hf : fetch s with
  | none => rw [hf] at h; exact .inl ⟨rfl, (Host.Outcome.next.inj h).symm⟩
  | some i => rw [hf] at h; exact .inr ⟨i, rfl, h⟩

end Sys2Proof.Machine
end

