-- ==== Sys2Proof/Laws/Memory.lean ====
section
/-! SUPPORT. The laws of the frame buffer: a read after a write, the canonical form kept by every operation, and canonical
buffers with the same written bytes being equal data. -/

namespace Sys2Proof.Machine

/-! ## Reading after writing -/

theorem cellAt_putCell (m : List Host.Cell) (a a' : Nat) (b : Byte) :
    cellAt (putCell m a b) a' = if a = a' then some b else cellAt m a' := by
  induction m with
  | nil => simp [putCell, cellAt]
  | cons c rest ih =>
    obtain ⟨k, v⟩ := c
    simp only [putCell]
    split
    · rfl
    · split <;> rename_i hk
      · subst hk; simp only [cellAt]; split <;> simp_all
      · simp only [cellAt, ih]
        split <;> split <;> simp_all

@[simp] theorem Memory.read_write_same (m : Memory) (a : Nat) (b : Byte) : (m.write a b).read a = some b := by
  simp [Memory.read, Memory.write, cellAt_putCell]

theorem Memory.read_write_other (m : Memory) {a a' : Nat} (b : Byte) (h : a' ≠ a) :
    (m.write a b).read a' = m.read a' := by
  simp [Memory.read, Memory.write, cellAt_putCell, Ne.symm h]

theorem Memory.read_write (m : Memory) (a a' : Nat) (b : Byte) :
    (m.write a b).read a' = if a = a' then some b else m.read a' := by
  simp [Memory.read, Memory.write, cellAt_putCell]

@[simp] theorem Memory.read_empty (a : Nat) : (Memory.mk []).read a = none := rfl

theorem State.fbByte_of_read {s : State} {a : Nat} {b : Byte} (h : s.fb.read a = some b) : s.fbByte a = b := by
  simp [State.fbByte, h]

theorem fbByte_memWrite (s : State) (a a' : Nat) (b : Byte) :
    (memWrite a b s).fbByte a' = if a = a' then b else s.fbByte a' := by
  by_cases h : a = a' <;> simp [State.fbByte, Memory.read_write, h]

/-- Byte `i` of the snapshot is the buffer's byte at offset `i`. -/
theorem snapshot_get (s : State) (i : Nat) (h : i < 14) : s.snapshot[i] = s.fbByte i := by
  simp [State.snapshot]

/-! ## The canonical form -/

theorem cellsFrom_mono {lo lo' : Nat} (h : lo' ≤ lo) : ∀ {m : List Host.Cell}, cellsFrom lo m = true → cellsFrom lo' m = true
  | [], _ => rfl
  | (k, v) :: rest, hm => by
    simp only [cellsFrom, Bool.and_eq_true, decide_eq_true_eq] at hm ⊢
    exact ⟨⟨by omega, hm.1.2⟩, hm.2⟩

theorem cellsFrom_putCell {a : Nat} {b : Byte} (ha : a < Config.frameLen) :
    ∀ {m : List Host.Cell} {lo : Nat}, lo ≤ a → cellsFrom lo m = true → cellsFrom lo (putCell m a b) = true
  | [], lo, hlo, _ => by simp [putCell, cellsFrom, hlo, ha]
  | (k, v) :: rest, lo, hlo, hm => by
    simp only [cellsFrom, Bool.and_eq_true, decide_eq_true_eq] at hm
    simp only [putCell]
    split
    · simp only [cellsFrom, Bool.and_eq_true, decide_eq_true_eq]
      exact ⟨⟨hlo, ha⟩, ⟨by omega, hm.1.2⟩, hm.2⟩
    · split
      · subst a
        simpa only [cellsFrom, Bool.and_eq_true, decide_eq_true_eq] using hm
      · simp only [cellsFrom, Bool.and_eq_true, decide_eq_true_eq]
        exact ⟨hm.1, cellsFrom_putCell ha (by omega) hm.2⟩

@[simp] theorem Memory.wf_empty : (Memory.mk []).wf = true := rfl

/-- The launch state's buffer is canonical. -/
theorem reset_fb_wf : State.reset.fb.wf = true := rfl

/-- Writing within the buffer keeps the canonical form. -/
theorem Memory.wf_write {m : Memory} {a : Nat} {b : Byte} (h : m.wf = true) (ha : a < 14) : (m.write a b).wf = true :=
  cellsFrom_putCell (by simpa [Config.frameLen] using ha) (Nat.zero_le a) h

/-- The operations over the buffer keep the canonical form: a write within it, accepting the marker, storing a payload byte under
a count that R22 allows, and a reset. -/
theorem memWrite_wf {s : State} {a : Nat} {b : Byte} (h : s.fb.wf = true) (ha : a < 14) : (memWrite a b s).fb.wf = true :=
  Memory.wf_write h ha

theorem acceptMarker_wf {s : State} (h : s.fb.wf = true) : (acceptMarker s).fb.wf = true := Memory.wf_write h (by omega)

theorem storePayload_wf {s : State} {b : Byte} (h : s.fb.wf = true) (hc : s.cnt.toNat ≤ 12) :
    (storePayload b s).fb.wf = true := Memory.wf_write h (by omega)

theorem completeFrame_wf {s : State} {b : Byte} (h : s.fb.wf = true) : (completeFrame b s).fb.wf = true :=
  Memory.wf_write h (by omega)

theorem takeReset_wf (s : State) : (takeReset s).fb.wf = true := rfl

theorem cellAt_eq_none_of_lt : ∀ {m : List Host.Cell} {lo a : Nat}, cellsFrom lo m = true → a < lo → cellAt m a = none
  | [], _, _, _, _ => rfl
  | (k, v) :: rest, lo, a, hm, ha => by
    simp only [cellsFrom, Bool.and_eq_true, decide_eq_true_eq] at hm
    rw [cellAt, if_neg (by omega)]
    exact cellAt_eq_none_of_lt hm.2 (by omega)

/-- In a canonical buffer nothing is listed outside the block's address space (R40). -/
theorem cellAt_eq_none_of_ge : ∀ {m : List Host.Cell} {lo a : Nat}, cellsFrom lo m = true → Config.frameLen ≤ a →
    cellAt m a = none
  | [], _, _, _, _ => rfl
  | (k, v) :: rest, lo, a, hm, ha => by
    simp only [cellsFrom, Bool.and_eq_true, decide_eq_true_eq] at hm
    rw [cellAt, if_neg (by omega)]
    exact cellAt_eq_none_of_ge hm.2 ha

theorem cells_ext : ∀ {m m' : List Host.Cell} {lo lo' : Nat}, cellsFrom lo m = true → cellsFrom lo' m' = true →
    (∀ a, cellAt m a = cellAt m' a) → m = m'
  | [], [], _, _, _, _, _ => rfl
  | [], (k, v) :: rest, _, _, _, _, h => by simpa [cellAt] using h k
  | (k, v) :: rest, [], _, _, _, _, h => by simpa [cellAt] using h k
  | (k, v) :: rest, (k', v') :: rest', lo, lo', hm, hm', h => by
    simp only [cellsFrom, Bool.and_eq_true, decide_eq_true_eq] at hm hm'
    have hk : k = k' := by
      rcases Nat.lt_trichotomy k k' with hlt | heq | hgt
      · have := h k
        rw [cellAt, if_pos rfl, cellAt, if_neg (by omega), cellAt_eq_none_of_lt hm'.2 (by omega)] at this
        simp at this
      · exact heq
      · have := h k'
        rw [cellAt, if_neg (by omega), cellAt_eq_none_of_lt hm.2 (by omega), cellAt, if_pos rfl] at this
        simp at this
    subst hk
    have hv : v = v' := by simpa [cellAt] using h k
    subst hv
    have hrest : rest = rest' := by
      refine cells_ext hm.2 hm'.2 fun a => ?_
      by_cases hak : k = a
      · subst hak
        rw [cellAt_eq_none_of_lt hm.2 (by omega), cellAt_eq_none_of_lt hm'.2 (by omega)]
      · simpa [cellAt, hak] using h a
    rw [hrest]

/-- Canonical buffers with the same written bytes are equal data. -/
theorem Memory.ext_read {m m' : Memory} (h : m.wf = true) (h' : m'.wf = true) (hr : ∀ a, m.read a = m'.read a) : m = m' := by
  cases m; cases m'
  exact congrArg Memory.mk (cells_ext h h' hr)

end Sys2Proof.Machine
end

