-- ==== Sys2Proof/Laws/PerInstr.lean ====
section
/-! SUPPORT. Statements made for every instruction, one lemma per constructor. -/

namespace Sys2Proof.Laws.EncodedWellFormed

/-- The bytes an instruction encodes to are well formed as the bytes of an instruction (R60, R65). -/
def Statement (i : Instr) : Prop := bytesWellFormed (encodeBytes i) = true

/-- Two bits widened to a byte leave the six above them 0. -/
theorem highBits_setWidth (v : BitVec 2) : (v.setWidth 8 : Byte).extractLsb' 2 6 = 0 := by revert v; decide

theorem event_wellFormed (w : EventWord) : bytesWellFormed (PortWord.event w).toBytes = true := by
  simp [bytesWellFormed, lengthWellFormed, eventBitsWellFormed, PortWord.toBytes, eventBytes, highBits_setWidth]

theorem idle (data : Byte) : Statement (.idle data) := event_wellFormed _
theorem byte (data : Byte) : Statement (.byte data) := event_wellFormed _
theorem timeout (data : Byte) : Statement (.timeout data) := event_wellFormed _
theorem eos (data : Byte) : Statement (.eos data) := event_wellFormed _

theorem decode (len : Byte) (frame : RawFrame) : Statement (.decode len frame) := by
  have hlen : (PortWord.request ⟨len, packBytes 112 frame.toList⟩).toBytes.length = 15 := by simp [PortWord.toBytes]
  have hbits : ∀ bs : List Byte, bs.length = 15 → bytesWellFormed bs = true := by
    intro bs h
    match bs, h with
    | a :: b :: c :: rest, h =>
      simp only [bytesWellFormed, lengthWellFormed, eventBitsWellFormed, requestBytes, h]
      simp
  exact hbits _ hlen

end Sys2Proof.Laws.EncodedWellFormed
end

