-- ==== Sys2Proof/Laws/Run.lean ====
section
/-! SUPPORT. Runs: how they are put together, which input a step of a run takes, and the two kinds of step an assembly is made of,
a byte and a step that is neither a byte nor an abandoning input. -/

namespace Sys2Proof.Machine

/-! ## Putting runs together -/

theorem stateAfter_add : ∀ (m n : Nat) (s : State), stateAfter (m + n) s = (stateAfter m s).bind (stateAfter n)
  | 0, n, s => by simp [stateAfter]
  | m + 1, n, s => by
    rw [Nat.add_right_comm]
    simp only [stateAfter]
    cases step s with
    | next t => exact stateAfter_add m n t
    | fault => rfl
    | refused => rfl

theorem outputs_add : ∀ (m n : Nat) {s t : State}, stateAfter m s = some t → outputs (m + n) s = outputs m s ++ outputs n t
  | 0, n, s, t, h => by
    simp only [stateAfter, Option.some.injEq] at h
    simp [outputs, h]
  | m + 1, n, s, t, h => by
    rw [Nat.add_right_comm]
    simp only [stateAfter] at h
    simp only [outputs]
    cases hs : step s with
    | next u =>
      simp only [hs] at h
      simp [outputs_add m n h]
    | fault => simp [hs] at h
    | refused => simp [hs] at h

/-! ## The input of a step -/

/-- An instruction leaves what the environment will present alone. -/
theorem exec_inputs {i : Instr} {s t : State} (h : exec i s = .next t) : t.inputs = s.inputs := by
  obtain ⟨rfl, -⟩ | ⟨-, -, rfl⟩ | ⟨_, -, -, -, rfl⟩ | ⟨_, -, -, -, rfl⟩ | ⟨_, -, -, rfl⟩ | ⟨_, -, -, rfl⟩ | ⟨_, _, -, rfl⟩ :=
    exec_cases h <;> rfl

/-- A step takes exactly one input. -/
theorem step_inputs {s t : State} (h : step s = .next t) : t.inputs = s.inputs.tail := by
  obtain ⟨-, rfl⟩ | ⟨i, -, h⟩ := step_cases h
  · rfl
  · rw [exec_inputs h, consume_inputs]

theorem stateAfter_inputs : ∀ (n : Nat) {s t : State}, stateAfter n s = some t → t.inputs = s.inputs.drop n
  | 0, s, t, h => by
    simp only [stateAfter, Option.some.injEq] at h
    simp [h]
  | n + 1, s, t, h => by
    simp only [stateAfter] at h
    cases hs : step s with
    | next u =>
      simp only [hs] at h
      rw [stateAfter_inputs n h, step_inputs hs, List.drop_tail]
    | fault => simp [hs] at h
    | refused => simp [hs] at h

/-- The input that a run's step takes. -/
theorem nextInput_stateAfter {n : Nat} {s t : State} (h : stateAfter n s = some t) : nextInput t = s.inputAt n := by
  rw [nextInput, stateAfter_inputs n h, State.inputAt]
  simp [List.headD_eq_head?_getD, List.head?_drop]

/-! ## The steps of an assembly -/

/-- A step that presents a byte executes BYTE. -/
theorem step_byte {s : State} {b : Byte} (h : (nextInput s).byte? = some b) : step s = exec (.byte b) (consume s) := by
  unfold Input.byte? at h
  unfold step fetch
  cases hi : inputInstr (nextInput s) with
  | none => simp [hi] at h
  | some i =>
    cases i with
    | byte d =>
      simp only [hi, Option.some.injEq] at h
      rw [h]
    | _ => simp [hi] at h

/-- A step that presents neither a byte nor an abandoning input changes nothing of the block and reports nothing. -/
theorem step_quiet {s : State} (ha : (nextInput s).abandons = false) (hb : (nextInput s).byte? = none) :
    ∃ t, step s = .next t ∧ t.phase = s.phase ∧ t.cnt = s.cnt ∧ t.fb = s.fb ∧ t.fbEpoch = s.fbEpoch ∧
      t.inputs = s.inputs.tail ∧ t.out = OutPorts.zero := by
  unfold Input.abandons at ha
  unfold Input.byte? at hb
  unfold step fetch
  cases hi : inputInstr (nextInput s) with
  | none => simp [hi] at ha
  | some i =>
    cases i with
    | idle d => exact ⟨_, rfl, rfl, rfl, rfl, rfl, rfl, rfl⟩
    | decode len f => exact ⟨_, rfl, rfl, rfl, rfl, rfl, rfl, rfl⟩
    | byte b => simp [hi] at hb
    | timeout d => simp [hi] at ha
    | eos d => simp [hi] at ha

end Sys2Proof.Machine
end

