-- ==== Sys2Proof/Tests/Slice0.lean ====
section
/-! SUPPORT. The model's own tests, with expected results from spec/ (95_test_vectors.md unless a comment says otherwise): decoding
of words written out from 30_encoding.md, the well-formedness smoke, the digit functions and the pipeline, one step per
instruction; then one witness for the hypotheses of every statement that has some. -/

namespace Sys2Proof.Tests

open Sys2Proof Sys2Proof.Machine

/-! ## Small states and readers -/

/-- A state in SCAN after an earlier step that reported END, with one more input to come. -/
def scanState : State := { State.reset with out := Output.ended.toPorts, inputs := [idleInput] }

/-- A state in ASM whose fragment is the marker and then `bs`. -/
def asmState (bs : List Byte) : State :=
  { State.reset with
    phase := .asm, cnt := BitVec.ofNat 4 bs.length, fb := ⟨(0x02#8 :: bs).zipIdx.map fun p => (p.2, p.1)⟩ }

/-- A state in ENDED. -/
def endedState : State := { State.reset with phase := .ended }

/-- The state an outcome gives, if it gives one. -/
def nextOf : Host.Outcome State Fault Refusal → Option State
  | .next s => some s
  | _ => none

/-- Twelve payload bytes of the worked example's valid variant, "01ABCD000067" (section 1.1). -/
def goodBytes : List Byte :=
  [0x30#8, 0x31#8, 0x41#8, 0x42#8, 0x43#8, 0x44#8, 0x30#8, 0x30#8, 0x30#8, 0x30#8, 0x36#8, 0x37#8]

/-- The frame whose twelve characters between the markers are those of a string. -/
def framed (str : String) : RawFrame := frameOf (Vector.ofFn fun i => (ascii str).getD i 0)

/-- A vector of the characters of a string. -/
def chars (n : Nat) (str : String) : Vector Byte n := Vector.ofFn fun i => (ascii str).getD i 0

def isOk : Except DecodeError TagRecord → Option TagRecord
  | .ok r => some r
  | .error _ => none

def isError : Except DecodeError TagRecord → Option DecodeError
  | .ok _ => none
  | .error e => some e

theorem eq_ok {x : Except DecodeError TagRecord} {r : TagRecord} (h : isOk x = some r) : x = .ok r := by
  cases x with
  | ok q => exact congrArg _ (Option.some.inj h)
  | error e => cases h

/-! ## Decoding is right: words written out from 30_encoding.md R60, R61, R65 -/

theorem test_decode_idle_word : decodeEvent 0b00_00000000#10 = .idle 0x00#8 := by decide
theorem test_decode_byte_word : decodeEvent 0b01_00000010#10 = .byte 0x02#8 := by decide
theorem test_decode_byte_top_word : decodeEvent 0x1FF#10 = .byte 0xFF#8 := by decide
theorem test_decode_timeout_word : decodeEvent 0b10_01000001#10 = .timeout 0x41#8 := by decide
theorem test_decode_eos_word : decodeEvent 0b11_00000000#10 = .eos 0x00#8 := by decide
theorem test_decode_table_rows :
    decodeTableWord 16 0x000 = some (.idle 0) ∧ decodeTableWord 16 0x100 = some (.byte 0) ∧
    decodeTableWord 16 0x200 = some (.timeout 0) ∧ decodeTableWord 16 0x300 = some (.eos 0) ∧
    decodeTableWord 8 0 = some (.decode 0 (Vector.replicate 14 0)) := by decide
/-- `DECODE len=14 frame=02 30 ... 03`, byte 0 in bits [111:104]. -/
theorem test_decode_request_word :
    decodeRequest ⟨14#8, 0x0230314142434430303030363703#112⟩ = .decode 14#8 (framed "01ABCD000067") := by decide
theorem test_encode_byte : encode (.byte 0x02#8) = .event 0x102#10 := by decide

/-! ## Well-formedness smoke: an ill-formed byte string for each check -/

theorem test_wellFormed_refuses_length : lengthWellFormed [0x02#8] = false ∧ bytesWellFormed [0x02#8] = false := by decide
theorem test_wellFormed_refuses_high_bits :
    eventBitsWellFormed [0x02#8, 0x05#8] = false ∧ bytesWellFormed [0x02#8, 0x05#8] = false := by decide
theorem test_wellFormed_accepts_event : bytesWellFormed [0x02#8, 0x01#8] = true := by decide
theorem test_decodeBytes_rejects_by_name :
    portWordOfBytes [0x02#8] = .error (.wrongLength 1) ∧
    portWordOfBytes [0x02#8, 0x05#8] = .error (.bitsAboveEventWord 0x05#8) := ⟨rfl, rfl⟩

/-! ## Digits and rendering (section 2.1, 2.5) -/

theorem test_hexval_edges :
    [0x30#8, 0x39#8, 0x41#8, 0x46#8, 0x61#8, 0x66#8].map hexval = [some 0, some 9, some 10, some 15, some 10, some 15] ∧
    [0x2F#8, 0x3A#8, 0x40#8, 0x47#8, 0x60#8, 0x67#8, 0x20#8, 0x2B#8, 0x2D#8, 0x78#8, 0x5F#8, 0x00#8, 0x02#8, 0x03#8, 0x80#8,
      0xFF#8].map hexval = List.replicate 16 none := by decide
theorem test_hex2_values :
    hex2 0x37#8 0x66#8 = some 127#8 ∧ hex2 0x41#8 0x35#8 = some 165#8 ∧ hex2 0x66#8 0x46#8 = some 255#8 ∧
    hex2 0x30#8 0x47#8 = none ∧ hex2 0x47#8 0x30#8 = none := by decide
theorem test_hex8_values :
    hex8 (chars 8 "0000001a") = some 26#32 ∧ hex8 (chars 8 "DEADBEEF") = some 3735928559#32 ∧
    hex8 (chars 8 "FFFFFFFF") = some 4294967295#32 ∧ hex8 (chars 8 "ABCD00G0") = none := by decide
theorem test_dec10_padding : (dec10 999999999#32).toList = ascii "0999999999" := by decide
theorem test_dec10_no_padding :
    (dec10 1000000000#32).toList = ascii "1000000000" ∧ (dec10 4294967295#32).toList = ascii "4294967295" := by decide

/-! ## The pipeline (sections 1.1, 2.2 to 2.4) -/

theorem test_decode_valid_variant :
    isOk (decodeFrame 14#8 (framed "01ABCD000067")) = some ⟨1#8, chars 8 "ABCD0000", chars 10 "2882338816"⟩ := by decide
theorem test_decode_worked_example :
    isError (decodeFrame 14#8 (framed "01ABCD000006")) = some (.checksum 0x67#8 0x06#8) := by decide
theorem test_decode_keeps_case :
    isOk (decodeFrame 14#8 (framed "01aBCD000067")) = some ⟨1#8, chars 8 "aBCD0000", chars 10 "2882338816"⟩ := by decide
theorem test_decode_version_before_checksum :
    isError (decodeFrame 14#8 (framed "0GABCD0000ZZ")) = some (.invalidHex .version (ascii "0G")) := by decide
theorem test_decode_checksum_before_tag :
    isError (decodeFrame 14#8 (framed "01ABCD00G0ZZ")) = some (.invalidHex .checksum (ascii "ZZ")) := by decide
theorem test_decode_tag_before_comparison :
    isError (decodeFrame 14#8 (framed "01ABCD00G067")) = some (.invalidHex .tag (ascii "ABCD00G0")) := by decide
theorem test_decode_markers_before_hex :
    isError (decodeFrame 14#8 ((framed "G1ABCD000067").set 0 0x00#8)) = some (.invalidMarker 0x00#8 0x03#8) := by decide
theorem test_decode_length_first :
    isError (decodeFrame 13#8 ((framed "01ABCD000067").set 0 0x00#8)) = some (.invalidLength 13#8) := by decide
/-- Section 2.2, port level. -/
theorem test_ports_of_invalidHex :
    (errPorts (.invalidHex .checksum (ascii "Z1"))).value = 0x5A31000000000000#64 ∧
    (errPorts (.invalidHex .tag (ascii "ABCD00G0"))).value = 0x4142434430304730#64 := by decide

/-! ## One step per instruction (sections 1.1 and 2.7) -/

/-- IDLE keeps the fragment and its count (ASM, cnt 5). -/
theorem test_idle_keeps_fragment :
    nextOf (exec (.idle 0xFF#8) (asmState (goodBytes.take 5))) = some (asmState (goodBytes.take 5)) := by decide
/-- 102 in SCAN. -/
theorem test_byte_marker_starts :
    (nextOf (exec (.byte 0x02#8) scanState)).map (fun t => (t.phase, t.cnt, t.fb.read 0, t.out)) =
      some (.asm, 0#4, some 0x02#8, OutPorts.zero) := by decide
/-- 103 in ASM with cnt 12: the record at port level. -/
theorem test_byte_completes_frame :
    (nextOf (exec (.byte 0x03#8) (asmState goodBytes))).map (fun t => (t.phase, t.cnt, t.out)) =
      some (.scan, 0#4, { OutPorts.zero with
        kind := 0b01#2, version := 1#8, rawTag := 0x4142434430303030#64, fmt := 0x32383832333338383136#80 }) := by decide
/-- 2FF in ASM with cnt 0. -/
theorem test_timeout_discards :
    (nextOf (exec (.timeout 0xFF#8) (asmState []))).map (fun t => (t.phase, t.cnt, t.out)) =
      some (.scan, 0#4, OutPorts.zero) := by decide
/-- 300 in ASM with cnt 4. -/
theorem test_eos_discards :
    (nextOf (exec (.eos 0x00#8) (asmState (goodBytes.take 4)))).map (fun t => (t.phase, t.cnt, t.out.kind)) =
      some (.ended, 0#4, 0b11#2) := by decide
/-- `DECODE len=14 frame=41 ... 42` (section 2.4). -/
theorem test_unit_reports_both_markers :
    (nextOf (exec (.decode 14#8 (((framed "01ABCD000067").set 0 0x41#8).set 13 0x42#8)) (asmState []))).map
      (fun t => (t.phase, t.out, t.duOut)) =
      some (.asm, OutPorts.zero, some { OutPorts.zero with kind := 0b10#2, err := 1#2, a := 0x41#8, b := 0x42#8 }) := by decide
/-- A reset in the middle of a frame drops the event with it. -/
theorem test_step_reset :
    (nextOf (step ((asmState goodBytes).withInputs [.event true 0x103#10]))).map
      (fun t => (t.phase, t.cnt, t.fb, t.inputs, t.out)) = some (.scan, 0#4, ⟨[]⟩, [], OutPorts.zero) := by decide
/-- The very first step after reset runs the presented table word (the BYTE row with data 0x02). -/
theorem test_withFetchWord_runs_first :
    (nextOf (step (State.reset.withFetchWord 16 0x102))).map (fun t => (t.phase, t.inputs)) = some (.asm, []) := by decide
theorem test_withFetchWord_unit_row :
    (nextOf (step (State.reset.withFetchWord 8 0))).map (fun t => (t.duOut.map fun d => (d.kind, d.err), t.inputs)) =
      some (some (0b10#2, 0#2), []) := by decide

/-! ## Witnesses: for every statement with hypotheses, a state and operands that meet them -/

theorem witness_DecodedBytesEncodeBack : decodeBytes [0x02#8, 0x01#8] = .ok (.byte 0x02#8) := rfl

theorem witness_BytesDecodeExactlyWhenWellFormed :
    lengthWellFormed [0x02#8] = false ∧ (0x04#8 : Byte).extractLsb' 2 6 ≠ 0#6 := by decide

theorem witness_EventKindSelectsTheInstruction :
    (0x000#10 : EventWord).extractLsb' 8 2 = 0b00#2 ∧ (0x1FF#10 : EventWord).extractLsb' 8 2 = 0b01#2 ∧
    (0x241#10 : EventWord).extractLsb' 8 2 = 0b10#2 ∧ (0x300#10 : EventWord).extractLsb' 8 2 = 0b11#2 := by decide

theorem witness_DataBitsMatterOnlyForByte :
    (0x200#10 : EventWord).extractLsb' 8 2 = (0x2FF#10 : EventWord).extractLsb' 8 2 ∧
    (0x200#10 : EventWord).extractLsb' 8 2 ≠ 0b01#2 := by decide

theorem witness_StepRunsThePresentedInstruction :
    (scanState.withInputs [.event false 0x102#10]).inputs = .event false 0x102#10 :: [] ∧
    (scanState.withInputs [.request ⟨13#8, 0#112⟩]).inputs = .request ⟨13#8, 0#112⟩ :: [] ∧ State.reset.inputs = [] ∧
    portWordOfBytes [0x02#8, 0x01#8] = .ok (.event 0x102#10) ∧ decodeBytes [0x02#8, 0x01#8] = .ok (.byte 0x02#8) :=
  ⟨rfl, rfl, rfl, rfl, rfl⟩

theorem witness_ResetStepOverridesTheEvent :
    ((asmState goodBytes).withInputs [.event true 0x103#10]).inputs = .event true 0x103#10 :: [] ∧
    endedState.phase = .ended ∧ exec (.byte 0x02#8) endedState = .next endedState := ⟨rfl, rfl, rfl⟩

theorem witness_LaunchStateIsPostReset : (endedState.withInputs [.event true 0#10]).inputs = .event true 0#10 :: [] := rfl

theorem witness_EveryInstructionCompletes :
    State.reset.Inv ∧ (asmState []).Inv ∧ (asmState goodBytes).Inv ∧ endedState.Inv := by decide

theorem witness_ExcludedCountStopsAByte :
    (asmState (goodBytes ++ [0x03#8])).phase = .asm ∧ 12 < (asmState (goodBytes ++ [0x03#8])).cnt.toNat := by decide

theorem witness_EndedIgnoresEveryEvent :
    endedState.phase = .ended ∧ Instr.eos 0#8 ∈ [Instr.idle 0#8, .byte 0#8, .timeout 0#8, .eos 0#8] ∧
    (nextOf (step (endedState.withInputs [.event true 0#10]))).map (fun t => t.phase) = some .scan := by decide

theorem witness_IdleChangesNothing : scanState.phase = .scan ∧ (asmState []).phase = .asm := ⟨rfl, rfl⟩

theorem witness_MarkerStartsAFrame :
    scanState.phase = .scan ∧ ∃ t, exec (.byte 0x02#8) scanState = .next t ∧ t.phase ≠ .scan :=
  ⟨rfl, _, rfl, by decide⟩

theorem witness_OtherBytesAreDiscardedInScan : scanState.phase = .scan ∧ (0x03#8 : Byte) ≠ 0x02#8 := by decide

theorem witness_PayloadByteIsStoredAndCounted :
    (asmState []).phase = .asm ∧ (asmState []).cnt.toNat < 12 ∧
    (asmState (goodBytes.take 11)).phase = .asm ∧ (asmState (goodBytes.take 11)).cnt.toNat < 12 := by decide

theorem witness_LastByteCompletesDecodesAndReports :
    (asmState goodBytes).phase = .asm ∧ (asmState goodBytes).cnt.toNat = 12 := by decide

theorem witness_TimeoutInScanIsIgnored : scanState.phase = .scan := rfl
theorem witness_TimeoutDiscardsTheFragment : (asmState []).phase = .asm ∧ (asmState goodBytes).phase = .asm := ⟨rfl, rfl⟩
theorem witness_EndOfStreamInScan : scanState.phase = .scan := rfl
theorem witness_EndOfStreamDiscardsTheFragment : (asmState []).phase = .asm ∧ (asmState goodBytes).phase = .asm := ⟨rfl, rfl⟩

theorem witness_DecodeReportsOnTheUnitPorts :
    decodeFrame 14#8 (framed "01ABCD000067") = .ok ⟨1#8, chars 8 "ABCD0000", chars 10 "2882338816"⟩ ∧
    decodeFrame 13#8 (framed "01ABCD000067") = .error (.invalidLength 13#8) ∧
    (∀ len f, Instr.byte 0#8 ≠ .decode len f) ∧ ∃ t, exec (.byte 0#8) scanState = .next t :=
  ⟨eq_ok test_decode_valid_variant, rfl, by simp, _, rfl⟩

theorem witness_BufferIsWrittenOnlyByTheAssembler :
    (∃ t, exec (.byte 0x02#8) scanState = .next t ∧ t.fb.read 0 ≠ scanState.fb.read 0) ∧
    ∃ t, exec (.byte 0x31#8) (asmState [0x30#8]) = .next t ∧ t.fb.read 2 ≠ (asmState [0x30#8]).fb.read 2 :=
  ⟨⟨_, rfl, by decide⟩, _, rfl, by decide⟩

theorem witness_PhaseChangesOnlyByTheRules :
    (∃ t, exec (.byte 0x02#8) scanState = .next t ∧ t.phase ≠ scanState.phase) ∧
    (∃ t, exec (.timeout 0#8) (asmState []) = .next t ∧ t.phase ≠ (asmState []).phase) ∧
    (∃ t, exec (.byte 0#8) (asmState goodBytes) = .next t ∧ t.phase ≠ (asmState goodBytes).phase) ∧
    ∃ t, exec (.eos 0#8) (asmState []) = .next t ∧ t.phase ≠ (asmState []).phase :=
  ⟨⟨_, rfl, by decide⟩, ⟨_, rfl, by decide⟩, ⟨_, rfl, by decide⟩, _, rfl, by decide⟩

theorem witness_OutputsAreEmittedInTheirOwnStep : ∃ t, exec (.eos 0#8) scanState = .next t ∧ t.out.kind = 0b11#2 :=
  ⟨_, rfl, by decide⟩

/-- A frame with a wrong tail, through the assembler (section 2.7). -/
theorem witness_TopLevelReportsNoWrongLengthOrHead :
    (asmState goodBytes).Inv ∧
    (∃ t, exec (.byte 0x03#8) (asmState goodBytes) = .next t ∧ t.out.kind = 0b01#2) ∧
    ∃ t, exec (.byte 0x30#8) (asmState goodBytes) = .next t ∧ t.out.kind = 0b10#2 ∧ t.out.err = 1#2 :=
  ⟨by decide, ⟨_, rfl, by decide⟩, _, rfl, by decide, by decide⟩

theorem witness_LengthIsCheckedFirst : (15#8 : Byte) ≠ 14#8 ∧ (0#8 : Byte) ≠ 14#8 := by decide

theorem witness_MarkersAreCheckedSecond :
    ((framed "01ABCD000067").set 13 0x0D#8)[13] ≠ 0x03#8 ∧
    decodeFrame 14#8 ((framed "01ABCD000067").set 13 0x0D#8) = .error (.invalidMarker 0x02#8 0x0D#8) := ⟨by decide, rfl⟩

/-- One frame for each clause of the chain. -/
theorem witness_FirstFailingCheckIsReported :
    (13#8 : Byte) ≠ 14#8 ∧ ((framed "01ABCD000067").set 0 0x00#8)[0] ≠ 0x02#8 ∧
    (framed "0GABCD000067")[0] = 0x02#8 ∧ (framed "0GABCD000067")[13] = 0x03#8 ∧ hexval (framed "0GABCD000067")[2] = none ∧
    hex2 (framed "01ABCD0000Z1")[1] (framed "01ABCD0000Z1")[2] = some 1#8 ∧ hexval (framed "01ABCD0000Z1")[11] = none ∧
    hex2 (framed "01ABCD00G067")[11] (framed "01ABCD00G067")[12] = some 0x67#8 ∧ hexval (framed "01ABCD00G067")[9] = none ∧
    hex2 (framed "01ABCD000067")[3] (framed "01ABCD000067")[4] = some 0xAB#8 ∧
    hex2 (framed "01ABCD000067")[5] (framed "01ABCD000067")[6] = some 0xCD#8 ∧
    hex2 (framed "01ABCD000067")[7] (framed "01ABCD000067")[8] = some 0#8 ∧
    hex2 (framed "01ABCD000067")[9] (framed "01ABCD000067")[10] = some 0#8 ∧
    (0x01#8 ^^^ 0xAB#8 ^^^ 0xCD#8 ^^^ 0#8 ^^^ 0#8 : Byte) = 0x67#8 ∧ (0x67#8 : Byte) ≠ 0x06#8 := by decide

theorem witness_HexPairIsSixteenTimesTheFirstPlusTheSecond :
    hexval 0x47#8 = none ∧ hexval 0x66#8 = some 15 ∧ hexval 0x46#8 = some 15 := by decide

theorem witness_EightDigitsAreTheirWeightedSum :
    hexval (chars 8 "ABCD00G0")[6] = none ∧
    ∀ k : Fin 8, hexval (chars 8 "FFFFFFFF")[k.val] = some ((fun _ => 15 : Fin 8 → Nat) k) := by decide

theorem witness_RecordHoldsTheFieldsAndTenDigits :
    decodeFrame 14#8 (framed "01ABCD000067") = .ok ⟨1#8, chars 8 "ABCD0000", chars 10 "2882338816"⟩ :=
  eq_ok test_decode_valid_variant

theorem witness_FormattedTagIgnoresLetterCase :
    decodeFrame 14#8 (framed "01ABCD000067") = .ok ⟨1#8, chars 8 "ABCD0000", chars 10 "2882338816"⟩ ∧
    decodeFrame 14#8 (framed "01aBCD000067") = .ok ⟨1#8, chars 8 "aBCD0000", chars 10 "2882338816"⟩ ∧
    ∀ k (h : k < 14), 3 ≤ k → k ≤ 10 → hexval (framed "01ABCD000067")[k] = hexval (framed "01aBCD000067")[k] :=
  ⟨eq_ok test_decode_valid_variant, eq_ok test_decode_keeps_case, by decide⟩

theorem witness_CanonicalizationNeverFails :
    checksumTokens (framed "01ABCD000067") = some #v[0x01#8, 0xAB#8, 0xCD#8, 0#8, 0#8] := by decide

theorem witness_AnyValidTagAndVersionRoundTrip :
    hex2 (chars 2 "A5")[0] (chars 2 "A5")[1] = some 0xA5#8 ∧ hex2 (chars 8 "DEADbeef")[0] (chars 8 "DEADbeef")[1] = some 0xDE#8 ∧
    hex2 (chars 8 "DEADbeef")[2] (chars 8 "DEADbeef")[3] = some 0xAD#8 ∧
    hex2 (chars 8 "DEADbeef")[4] (chars 8 "DEADbeef")[5] = some 0xBE#8 ∧
    hex2 (chars 8 "DEADbeef")[6] (chars 8 "DEADbeef")[7] = some 0xEF#8 ∧
    hex2 0x38#8 0x37#8 = some (0xA5#8 ^^^ 0xDE#8 ^^^ 0xAD#8 ^^^ 0xBE#8 ^^^ 0xEF#8) := by decide

theorem witness_WrongMarkersAreReportedAsPut :
    decodeFrame 14#8 (framed "01ABCD000067") = .ok ⟨1#8, chars 8 "ABCD0000", chars 10 "2882338816"⟩ ∧
    ((0x03#8 : Byte) ≠ 0x02#8 ∨ (0x03#8 : Byte) ≠ 0x03#8) := ⟨eq_ok test_decode_valid_variant, by decide⟩

/-- The three cases of section 2.6: offset 1 to '1' (another digit), offset 10 to 0x20 (no digit), offset 3 to 'a' (same digit). -/
theorem witness_OneChangedByteFallsIntoThreeCases :
    decodeFrame 14#8 (framed "01ABCD000067") = .ok ⟨1#8, chars 8 "ABCD0000", chars 10 "2882338816"⟩ ∧
    (0x31#8 ≠ (framed "01ABCD000067")[1] ∧ hexval 0x31#8 = some 1 ∧ hexval (framed "01ABCD000067")[1] ≠ some 1) ∧
    (0x20#8 ≠ (framed "01ABCD000067")[10] ∧ hexval 0x20#8 = none) ∧
    (0x20#8 ≠ (framed "01ABCD000067")[2] ∧ hexval 0x20#8 = none) ∧
    (0x61#8 ≠ (framed "01ABCD000067")[3] ∧ hexval 0x61#8 = hexval (framed "01ABCD000067")[3]) :=
  ⟨eq_ok test_decode_valid_variant, by decide⟩

theorem witness_EveryStepKeepsTheInvariant : (asmState goodBytes).Inv ∧ ∃ t, step (asmState goodBytes) = .next t :=
  ⟨by decide, _, rfl⟩

theorem witness_InvariantStatesNeverStop : (asmState goodBytes).Inv := by decide

theorem witness_FragmentHoldsTheBytesInArrivalOrder :
    scanState.phase = .scan ∧ (∀ x ∈ byteLines goodBytes ++ [idleInput], x.abandons = false) ∧
    (presentedBytes (byteLines goodBytes ++ [idleInput])).length ≤ 12 := by decide

/-- The same fragment over buffers whose unwritten bytes come from different resets, and which one lists and the other does not. -/
theorem witness_UnwrittenBytesAreUnobservable :
    State.agree (asmState [0x30#8]) { asmState [0x30#8] with fbEpoch := 7, fb := (asmState [0x30#8]).fb.write 9 0xFF#8 } :=
  ⟨rfl, rfl, rfl, fun _ a ha => by
    have : a = 0 ∨ a = 1 := by have : (asmState [0x30#8]).cnt.toNat = 1 := by decide
                               omega
    rcases this with rfl | rfl <;> rfl⟩

/-- P1's good frame: the marker is presented in step 0 and the thirteenth byte in step 13. -/
def frameRun : State := State.reset.withInputs (frameLines (framed "01ABCD000067"))

theorem witness_FramesCompleteExactlyAfterThirteenBytes :
    frameRun.phase ≠ .asm ∧ (stateAfter 13 frameRun).map (fun t => (t.phase, t.cnt)) = some (.asm, 12#4) ∧
    ((stateAfter 13 frameRun).bind fun t => nextOf (step t)).map (fun t => t.out.kind) = some 0b01#2 ∧
    stateAfter 0 frameRun = some frameRun ∧ frameRun.phase = .scan ∧ (frameRun.inputAt 0).byte? = some 0x02#8 ∧
    (∀ x ∈ frameRun.inputsAfter 0 13, x.abandons = false) ∧ (presentedBytes (frameRun.inputsAfter 0 13)).length = 13 ∧
    ((frameRun.inputAt 13).byte?).isSome := by decide

theorem witness_FrameAfterATimeoutIsDecodedAlone :
    scanState.phase = .scan ∧ (∀ x ∈ strLines "01A", x.abandons = false) ∧ (presentedBytes (strLines "01A")).length < 13 ∧
    (∀ x ∈ [byteLine 0x03#8, idleInput], x.abandons = false ∧ x.byte? ≠ some 0x02#8) ∧
    (∀ x ∈ byteLines (goodBytes ++ [0x03#8]), x.abandons = false) ∧
    (framed "01ABCD000067").toList = 0x02#8 :: presentedBytes (byteLines (goodBytes ++ [0x03#8])) := by decide

/-- The mixed buffer of P3. -/
theorem witness_TruncatedFrameAbsorbsTheNext :
    scanState.phase = .scan ∧ (ascii "01A").length < 13 ∧
    (#v[0x02#8, 0x30#8, 0x31#8, 0x41#8, 0x02#8, 0x30#8, 0x31#8, 0x41#8, 0x42#8, 0x43#8, 0x44#8, 0x30#8, 0x30#8, 0x30#8] :
      RawFrame).toList = 0x02#8 :: ascii "01A" ++ (framed "01ABCD000067").toList.take (13 - (ascii "01A").length) ∧
    ∀ b ∈ (framed "01ABCD000067").toList.drop (13 - (ascii "01A").length), b ≠ 0x02#8 := by decide

theorem witness_BackToBackFramesAreEachReported :
    scanState.phase = .scan ∧ (framed "01ABCD000006")[0] = 0x02#8 ∧ (framed "01ABCD000067")[0] = 0x02#8 := by decide

/-- `GOODFRAME "01" "0000001A"` has the checksum characters "1B" (section 2.5). -/
theorem witness_GoodFrameIsReportedAsItsTag :
    scanState.phase = .scan ∧ goodFrame (chars 2 "01") (chars 8 "0000001A") = some (framed "010000001A1B") := by decide

theorem witness_EndedIsFinalUntilReset :
    (endedState.withInputs [byteLine 0x02#8, eosLine]).phase = .ended ∧
    ∀ x ∈ (endedState.withInputs [byteLine 0x02#8, eosLine]).inputs, x.resets = false := by decide

theorem witness_NothingIsEmittedAfterEnd :
    (∀ x ∈ (scanState.withInputs [eosLine, byteLine 0x02#8]).inputs, x.resets = false) ∧
    ((outputs 2 (scanState.withInputs [eosLine, byteLine 0x02#8]))[0]?).map (fun o => o.kind) = some 0b11#2 ∧
    (outputs 2 (scanState.withInputs [eosLine, byteLine 0x02#8]))[1]? = some OutPorts.zero := by decide

theorem witness_AFrameLeavesNoTraceInLaterOutputs :
    (asmState goodBytes).phase = .asm ∧ (asmState (ascii "01ABCD000006")).phase = .asm ∧
    (asmState goodBytes).cnt.toNat = 12 ∧ (asmState (ascii "01ABCD000006")).cnt.toNat = 12 ∧
    (asmState goodBytes).inputs = (asmState (ascii "01ABCD000006")).inputs ∧
    (∃ t, exec (.byte 0x03#8) (asmState goodBytes) = .next t) ∧
    ∃ t, exec (.byte 0x30#8) (asmState (ascii "01ABCD000006")) = .next t :=
  ⟨rfl, rfl, by decide, by decide, rfl, ⟨_, rfl⟩, _, rfl⟩

theorem witness_InstancesShareNoState : (System.reset 2).blocks[1]? = some State.reset ∧ ∃ t, step State.reset = .next t :=
  ⟨rfl, _, rfl⟩

theorem witness_InstanceStepsCommute :
    (0 : Nat) ≠ 1 ∧ (∃ a, (System.reset 2).stepAt 0 = .next a) ∧ ∃ b, (System.reset 2).stepAt 1 = .next b :=
  ⟨by decide, ⟨_, rfl⟩, _, rfl⟩

end Sys2Proof.Tests
end

section
/-! SUPPORT. Which input a step takes and what is left of the list (R9, R100; the list is log entry 2). -/

namespace Sys2Proof.Machine

variable {s : State} {x : Input} {rest : List Input}

/-! ## Fetching and consuming, by the shape of the list -/

theorem fetch_of_inputs_cons (h : s.inputs = x :: rest) : fetch s = inputInstr x := by
  rw [fetch, nextInput, h, List.headD_cons]

theorem consume_of_inputs_cons (h : s.inputs = x :: rest) : consume s = { s with inputs := rest } := by
  rw [consume, h, List.tail_cons]

/-- An exhausted list presents IDLE (R61). -/
theorem fetch_of_inputs_nil (h : s.inputs = []) : fetch s = some (.idle 0#8) := by
  have hidle : inputInstr idleInput = some (.idle 0#8) := by decide
  rw [fetch, nextInput, h, List.headD_nil, hidle]

theorem consume_of_inputs_nil (h : s.inputs = []) : consume s = s := by
  rw [consume, h, List.tail_nil, ← h]

@[simp] theorem inputInstr_ofPortWord (p : PortWord) : inputInstr (Input.ofPortWord p) = some (decodePort p) := by
  cases p <;> rfl

/-! ## The step that follows -/

theorem step_of_fetch {i : Instr} (h : fetch s = some i) : step s = exec i (consume s) := by
  rw [step, h]

theorem step_of_inputs_cons {i : Instr} (h : s.inputs = x :: rest) (hx : inputInstr x = some i) :
    step s = exec i { s with inputs := rest } := by
  rw [step_of_fetch ((fetch_of_inputs_cons h).trans hx), consume_of_inputs_cons h]

theorem step_of_inputs_nil (h : s.inputs = []) : step s = exec (.idle 0#8) s := by
  rw [step_of_fetch (fetch_of_inputs_nil h), consume_of_inputs_nil h]

/-- A presented port word is executed on the state it was presented to. -/
theorem step_present (p : PortWord) (s : State) : step (present p s) = exec (decodePort p) s :=
  step_of_inputs_cons (present_inputs s p) (inputInstr_ofPortWord p)

end Sys2Proof.Machine

namespace Sys2Proof

theorem decodeBytes_of_portWordOfBytes {bs : List Byte} {p : PortWord} (h : portWordOfBytes bs = .ok p) :
    decodeBytes bs = .ok (decodePort p) := by
  rw [decodeBytes, h]

end Sys2Proof
end

section
/-! PROOF. A step runs the instruction that the environment presents. -/

namespace Sys2Proof.Proofs

open Sys2Proof Sys2Proof.Machine

/-- Settles O8, one clause per shape of the list of inputs. -/
theorem stepRunsThePresentedInstruction : Obligations.StepRunsThePresentedInstruction := by
  refine ⟨?event, ?request, ?nothing, ?bytes⟩
  case event => exact fun _ _ _ h => step_of_inputs_cons h rfl
  case request => exact fun _ _ _ h => step_of_inputs_cons h rfl
  case nothing => exact fun _ h => step_of_inputs_nil h
  case bytes =>
    intro s bs p i hp hi
    have hdecoded : decodePort p = i := Except.ok.inj ((decodeBytes_of_portWordOfBytes hp).symm.trans hi)
    rw [step_present, hdecoded]

end Sys2Proof.Proofs
end

section
/-! SUPPORT. The invariant (R22, R28), operation by operation, and then by an instruction and by a step. -/

namespace Sys2Proof.Machine

variable {s t : State}

/-! ## What the invariant does not read -/

/-- The ports and the list of inputs are not among the fields the invariant speaks of. -/
theorem State.Inv.congr (h : s.Inv) (hp : t.phase = s.phase) (hc : t.cnt = s.cnt) (hfb : t.fb = s.fb) : t.Inv := by
  unfold State.Inv
  rw [hp, hc, hfb]
  exact h

theorem emit_inv (h : s.Inv) (o : Output) : (emit o s).Inv := h.congr rfl rfl rfl

theorem emitUnit_inv (h : s.Inv) (o : Output) : (emitUnit o s).Inv := h.congr rfl rfl rfl

theorem consume_inv (h : s.Inv) : (consume s).Inv := h.congr rfl rfl rfl

/-! ## Outside ASM -/

theorem State.Inv.of_phase_ne_asm (hwf : s.fb.wf = true) (hp : s.phase ≠ .asm) (hc : s.cnt = 0) : s.Inv :=
  ⟨hwf, fun h => absurd h hp, fun _ => hc⟩

theorem leaveAssembly_inv (h : s.Inv) {p : Phase} (hp : p ≠ .asm) : (leaveAssembly p s).Inv :=
  .of_phase_ne_asm h.1 hp rfl

theorem completeFrame_inv (h : s.Inv) (b : Byte) : (completeFrame b s).Inv :=
  .of_phase_ne_asm (completeFrame_wf h.1) (by simp) rfl

theorem takeReset_inv (s : State) : (takeReset s).Inv := .of_phase_ne_asm (takeReset_wf s) (by simp) rfl

/-! ## In ASM -/

theorem State.Inv.of_phase_eq_asm (hwf : s.fb.wf = true) (hp : s.phase = .asm) (hhead : s.fb.read 0 = some Config.head)
    (hcnt : s.cnt.toNat ≤ 12) (hwritten : ∀ a, a ≤ s.cnt.toNat → (s.fb.read a).isSome) : s.Inv :=
  ⟨hwf, fun _ => ⟨hhead, hcnt, hwritten⟩, fun h => absurd hp h⟩

theorem acceptMarker_inv (h : s.Inv) : (acceptMarker s).Inv := by
  refine .of_phase_eq_asm (acceptMarker_wf h.1) rfl (by simp) (by simp) fun a ha => ?written
  case written =>
    obtain rfl : a = 0 := by simpa using ha
    simp

/-- Below 12 the counter does not wrap. -/
theorem storePayload_cnt_toNat (b : Byte) (hc : s.cnt.toNat < 12) : (storePayload b s).cnt.toNat = s.cnt.toNat + 1 := by
  rw [storePayload_cnt]
  bv_omega

/-- The one offset that joins the fragment is the one that is written; the others were written before (R28). -/
theorem storePayload_inv (h : s.Inv) (b : Byte) (hp : s.phase = .asm) (hc : s.cnt.toNat < 12) :
    (storePayload b s).Inv := by
  obtain ⟨hwf, hasm, -⟩ := h
  obtain ⟨hhead, -, hwritten⟩ := hasm hp
  have hcnt := storePayload_cnt_toNat b hc
  refine .of_phase_eq_asm (storePayload_wf hwf hc.le) hp ?head (by omega) fun a ha => ?written
  case head =>
    rw [storePayload_fb, Memory.read_write_other _ _ (by omega), hhead]
  case written =>
    rw [storePayload_fb, Memory.read_write]
    split
    · rfl
    · exact hwritten a (by omega)

/-! ## Instructions and steps -/

theorem exec_keeps_inv {i : Instr} (hs : s.Inv) (h : exec i s = .next t) : t.Inv := by
  obtain ⟨rfl, -⟩ | ⟨-, -, rfl⟩ | ⟨b, -, hp, hc, rfl⟩ | ⟨b, -, -, -, rfl⟩ | ⟨_, -, -, rfl⟩ | ⟨_, -, -, rfl⟩ | ⟨_, _, -, rfl⟩ :=
    exec_cases h
  · exact emit_inv hs _
  · exact emit_inv (acceptMarker_inv hs) _
  · exact emit_inv (storePayload_inv hs b hp hc) _
  · exact completeFrame_inv hs b
  · exact emit_inv (leaveAssembly_inv hs (by simp)) _
  · exact emit_inv (leaveAssembly_inv hs (by simp)) _
  · exact emitUnit_inv hs _

theorem step_keeps_inv (hs : s.Inv) (h : step s = .next t) : t.Inv := by
  obtain ⟨-, rfl⟩ | ⟨i, -, hexec⟩ := step_cases h
  · exact takeReset_inv _
  · exact exec_keeps_inv (consume_inv hs) hexec

end Sys2Proof.Machine
end

section
/-! SUPPORT. The output ports of the step before are read by nothing and replaced by every step (R26, R244). -/

namespace Sys2Proof.Machine

variable (s : State) (o : OutPorts) (d : Option OutPorts)

/-- No meaning reads the outputs, and one that completes ends in `emit` or `emitUnit`, which set both of them. -/
theorem exec_setPorts (i : Instr) : exec i { s with out := o, duOut := d } = exec i s := by
  cases i with
  | idle _ => rfl
  | byte _ => rfl
  | timeout _ => rfl
  | eos _ => rfl
  | decode _ _ => rfl

/-- What is presented does not depend on the outputs, and a reset sets both of them as an instruction does. -/
theorem step_setPorts : step { s with out := o, duOut := d } = step s := by
  have hfetch : fetch { s with out := o, duOut := d } = fetch s := rfl
  unfold step
  rw [hfetch]
  split
  case h_1 => rfl
  case h_2 i _ => exact exec_setPorts (consume s) o d i

end Sys2Proof.Machine
end

section
/-! PROOF. Every step keeps the invariant, and no result outlives its step. -/

namespace Sys2Proof.Proofs

open Sys2Proof Sys2Proof.Machine

/-- Settles O47, by what each operation does to the invariant: a step is a reset or one instruction, and only a stored payload byte
lengthens the fragment. -/
theorem everyStepKeepsTheInvariant : Obligations.EveryStepKeepsTheInvariant :=
  fun _ _ hs h => step_keeps_inv hs h

/-- Settles O27: every step replaces both outputs and reads neither. -/
theorem noResultIsKept : Obligations.NoResultIsKept :=
  step_setPorts

end Sys2Proof.Proofs
end

section
/-! SUPPORT. What one instruction can do to the frame buffer (R42). -/

namespace Sys2Proof.Machine

variable {i : Instr} {s t : State}

/-- R42, read as data: which write an instruction makes to the buffer, if it makes one. -/
theorem exec_fb_cases (h : exec i s = .next t) :
    (i = .byte Config.head ∧ s.phase = .scan ∧ t.fb = s.fb.write 0 Config.head) ∨
    (∃ b, i = .byte b ∧ s.phase = .asm ∧ t.fb = s.fb.write (1 + s.cnt.toNat) b) ∨
    (t.fb = s.fb ∧ (i = .byte Config.head → s.phase ≠ .scan) ∧ ∀ b, i = .byte b → s.phase ≠ .asm) := by
  obtain ⟨rfl, hkind⟩ | ⟨hi, hp, rfl⟩ | ⟨b, hi, hp, -, rfl⟩ | ⟨b, hi, hp, hc, rfl⟩ | ⟨_, rfl, -, rfl⟩ | ⟨_, rfl, -, rfl⟩ |
    ⟨_, _, rfl, rfl⟩ := exec_cases h
  case inl =>
    refine .inr (.inr ⟨rfl, ?_⟩)
    obtain ⟨d, rfl⟩ | ⟨hp, -⟩ | ⟨hp, ⟨b, rfl, hb⟩ | ⟨d, rfl⟩⟩ := hkind
    · simp
    · simp [hp]
    · simp [hp, hb]
    · simp
  · exact .inl ⟨hi, hp, rfl⟩
  · exact .inr (.inl ⟨b, hi, hp, rfl⟩)
  · exact .inr (.inl ⟨b, hi, hp, by rw [completeFrame_fb, hc]⟩)
  -- TIMEOUT, EOS and DECODE write nothing.
  all_goals exact .inr (.inr ⟨rfl, by simp, by simp⟩)

/-- No instruction draws the free values of the unwritten bytes anew; only a reset does. -/
theorem exec_fbEpoch (h : exec i s = .next t) : t.fbEpoch = s.fbEpoch := by
  obtain ⟨rfl, -⟩ | ⟨-, -, rfl⟩ | ⟨_, -, -, -, rfl⟩ | ⟨_, -, -, -, rfl⟩ | ⟨_, -, -, rfl⟩ | ⟨_, -, -, rfl⟩ | ⟨_, _, -, rfl⟩ :=
    exec_cases h <;> rfl

/-- Where a read after a write differs from the read before it, the write was to that offset. -/
theorem Memory.eq_of_read_write_ne {m : Memory} {a a' : Nat} {b : Byte} (h : (m.write a b).read a' ≠ m.read a') : a' = a :=
  Classical.byContradiction fun hne => h (Memory.read_write_other m b hne)

end Sys2Proof.Machine
end

section
/-! SUPPORT. Two states that agree on all but unwritten bytes of the buffer go on agreeing, and answer alike (R29, R43). -/

namespace Sys2Proof.Machine

variable {s t : State}

/-! ## Agreement, operation by operation -/

theorem State.agree.phase_eq : s.agree t → s.phase = t.phase
  | ⟨hp, _, _, _⟩ => hp

theorem State.agree.cnt_eq : s.agree t → s.cnt = t.cnt
  | ⟨_, hc, _, _⟩ => hc

theorem State.agree.inputs_eq : s.agree t → s.inputs = t.inputs
  | ⟨_, _, hi, _⟩ => hi

theorem State.agree.fbByte_eq (h : s.agree t) (hp : s.phase = .asm) {a : Nat} (ha : a ≤ s.cnt.toNat) :
    s.fbByte a = t.fbByte a := by
  obtain ⟨-, -, -, hfb⟩ := h
  exact hfb hp a ha

/-- Outside ASM no byte of the buffer is compared. -/
theorem State.agree.of_phase_ne_asm (hp : s.phase = t.phase) (hne : s.phase ≠ .asm) (hc : s.cnt = t.cnt)
    (hi : s.inputs = t.inputs) : s.agree t :=
  ⟨hp, hc, hi, fun h => absurd h hne⟩

theorem State.agree.emit (h : s.agree t) (o : Output) : (emit o s).agree (emit o t) := h

theorem State.agree.emitUnit (h : s.agree t) (o : Output) : (emitUnit o s).agree (emitUnit o t) := h

theorem State.agree.consume (h : s.agree t) : (consume s).agree (consume t) := by
  obtain ⟨hp, hc, hi, hfb⟩ := h
  exact ⟨hp, hc, congrArg List.tail hi, hfb⟩

theorem State.agree.leaveAssembly (h : s.agree t) {p : Phase} (hp : p ≠ .asm) :
    (leaveAssembly p s).agree (leaveAssembly p t) :=
  .of_phase_ne_asm rfl hp rfl h.inputs_eq

theorem State.agree.takeReset (h : s.agree t) : (takeReset s).agree (takeReset t) :=
  .of_phase_ne_asm rfl (by simp) rfl h.inputs_eq

/-- The one byte of a new fragment is written by the step that starts it. -/
theorem State.agree.acceptMarker (h : s.agree t) : (acceptMarker s).agree (acceptMarker t) := by
  refine ⟨rfl, rfl, h.inputs_eq, fun _ a ha => ?_⟩
  obtain rfl : a = 0 := by simpa using ha
  rw [State.fbByte_of_read (b := Config.head) (by simp), State.fbByte_of_read (b := Config.head) (by simp)]

theorem fbByte_storePayload (s : State) (b : Byte) (a : Nat) :
    (storePayload b s).fbByte a = if 1 + s.cnt.toNat = a then b else s.fbByte a :=
  fbByte_memWrite s _ a b

/-- The fragment grows by the one byte that both states store. -/
theorem State.agree.storePayload (h : s.agree t) (hp : s.phase = .asm) (hc : s.cnt.toNat < 12) (b : Byte) :
    (storePayload b s).agree (storePayload b t) := by
  refine ⟨h.phase_eq, congrArg (· + 1) h.cnt_eq, h.inputs_eq, fun _ a ha => ?_⟩
  rw [storePayload_cnt_toNat b hc] at ha
  rw [fbByte_storePayload, fbByte_storePayload, ← h.cnt_eq]
  split
  · rfl
  · exact h.fbByte_eq hp (by omega)

/-- Under a full count the last byte completes a snapshot of which every byte is the fragment's (R43). -/
theorem State.agree.snapshot_eq (h : s.agree t) (hp : s.phase = .asm) (hc : s.cnt.toNat = 12) (b : Byte) :
    (memWrite 13 b s).snapshot = (memWrite 13 b t).snapshot := by
  refine Vector.ext fun a ha => ?_
  rw [snapshot_get, snapshot_get, fbByte_memWrite, fbByte_memWrite]
  split
  · rfl
  · exact h.fbByte_eq hp (by omega)

theorem State.agree.completeFrame (h : s.agree t) (b : Byte) : (completeFrame b s).agree (completeFrame b t) :=
  .of_phase_ne_asm (by simp) (by simp) (by simp) (by simpa using h.inputs_eq)

/-! ## Instructions, steps and runs -/

/-- Two outcomes that nothing but unwritten bytes of the buffer tells apart: both go on, with the block's output the same and in
states that agree, or both stop with the same fault. -/
inductive OutcomesAgree : Host.Outcome State Fault Refusal → Host.Outcome State Fault Refusal → Prop
  | next {s t : State} (hout : s.out = t.out) (hagree : s.agree t) : OutcomesAgree (.next s) (.next t)
  | fault (r : Fault) : OutcomesAgree (.fault r) (.fault r)

theorem execByte_agree (h : s.agree t) (b : Byte) : OutcomesAgree (execByte b s) (execByte b t) := by
  unfold execByte
  rw [← h.phase_eq, ← h.cnt_eq]
  cases hp : s.phase with
  | scan =>
    by_cases hb : b = Config.head
    · simp only [hb, if_true]
      exact .next rfl (h.acceptMarker.emit _)
    · simp only [hb, if_false]
      exact .next rfl (h.emit _)
  | asm =>
    dsimp only
    split
    case isTrue hc => exact .next rfl ((h.storePayload hp hc b).emit _)
    case isFalse =>
      split
      case isTrue hc =>
        refine .next ?_ (h.completeFrame b)
        rw [completeFrame_out, completeFrame_out, h.snapshot_eq hp hc b]
      case isFalse => exact .fault _
  | ended => exact .next rfl (h.emit _)

theorem execTimeout_agree (h : s.agree t) (d : Byte) : OutcomesAgree (execTimeout d s) (execTimeout d t) := by
  unfold execTimeout
  rw [← h.phase_eq]
  cases s.phase with
  | scan => exact .next rfl (h.emit _)
  | asm => exact .next rfl ((h.leaveAssembly (by simp)).emit _)
  | ended => exact .next rfl (h.emit _)

theorem execEos_agree (h : s.agree t) (d : Byte) : OutcomesAgree (execEos d s) (execEos d t) := by
  unfold execEos
  rw [← h.phase_eq]
  cases s.phase with
  | scan => exact .next rfl ((h.leaveAssembly (by simp)).emit _)
  | asm => exact .next rfl ((h.leaveAssembly (by simp)).emit _)
  | ended => exact .next rfl (h.emit _)

theorem exec_agree (h : s.agree t) (i : Instr) : OutcomesAgree (exec i s) (exec i t) := by
  cases i with
  | idle _ => exact .next rfl (h.emit _)
  | byte b => exact execByte_agree h b
  | timeout d => exact execTimeout_agree h d
  | eos d => exact execEos_agree h d
  | decode _ _ => exact .next rfl (h.emitUnit _)

theorem fetch_eq_of_agree (h : s.agree t) : fetch s = fetch t := by
  rw [fetch, fetch, nextInput, nextInput, h.inputs_eq]

theorem step_agree (h : s.agree t) : OutcomesAgree (step s) (step t) := by
  unfold step
  rw [← fetch_eq_of_agree h]
  cases fetch s with
  | none => exact .next rfl h.consume.takeReset
  | some i => exact exec_agree h.consume i

theorem outputs_eq_of_agree : ∀ (n : Nat) {s t : State}, s.agree t → outputs n s = outputs n t
  | 0, _, _, _ => rfl
  | n + 1, s, t, h => by
    have hstep := step_agree h
    rw [outputs, outputs]
    generalize step s = o, step t = o' at hstep ⊢
    cases hstep with
    | next hout hagree => exact congrArg₂ List.cons hout (outputs_eq_of_agree n hagree)
    | fault _ => rfl

end Sys2Proof.Machine
end

section
/-! SUPPORT. An assembly under way: the fragment it has built, and how a step and a run extend it (R28, R103, R105). -/

namespace Sys2Proof.Machine

variable {s t : State} {bs : List Byte}

/-! ## The inputs of an assembly -/

@[simp] theorem inputInstr_byteLine (b : Byte) : inputInstr (byteLine b) = some (.byte b) := by
  have hkind : eventKind (0b01#2 ++ b) = 0b01#2 := by rw [eventKind, BitVec.extractLsb'_append_eq_left]
  have hdata : eventData (0b01#2 ++ b) = b := by rw [eventData, BitVec.extractLsb'_append_eq_right]
  rw [byteLine, inputInstr_ofPortWord, encode, decodePort, decodeEvent, hkind, hdata]
  rfl

@[simp] theorem byteLine_byte? (b : Byte) : (byteLine b).byte? = some b := by
  rw [Input.byte?, inputInstr_byteLine]

theorem presentedBytes_cons (x : Input) (xs : List Input) :
    presentedBytes (x :: xs) = x.byte?.toList ++ presentedBytes xs := by
  rw [presentedBytes, List.filterMap_cons]
  cases x.byte? <;> rfl

/-! ## The fragment -/

/-- The block is assembling, and what it has stored is the marker and then exactly `bs` (R28). -/
structure State.Assembled (s : State) (bs : List Byte) : Prop where
  phase : s.phase = .asm
  cnt   : s.cnt.toNat = bs.length
  read  : ∀ a, a ≤ bs.length → s.fb.read a = (Config.head :: bs)[a]?

/-- The ports and the list of inputs are no part of the fragment. -/
theorem State.Assembled.congr (h : s.Assembled bs) (hp : t.phase = s.phase) (hc : t.cnt = s.cnt) (hfb : t.fb = s.fb) :
    t.Assembled bs :=
  ⟨hp.trans h.phase, hc ▸ h.cnt, hfb ▸ h.read⟩

theorem acceptMarker_assembled (s : State) : (acceptMarker s).Assembled [] where
  phase := rfl
  cnt := rfl
  read a ha := by
    obtain rfl : a = 0 := by simpa using ha
    simp

theorem State.Assembled.storePayload (h : s.Assembled bs) (hlen : bs.length < 12) (b : Byte) :
    (storePayload b s).Assembled (bs ++ [b]) where
  phase := h.phase
  cnt := by
    rw [storePayload_cnt_toNat b (h.cnt ▸ hlen), h.cnt, List.length_append, List.length_singleton]
  read a ha := by
    rw [List.length_append, List.length_singleton] at ha
    rw [storePayload_fb, Memory.read_write, h.cnt, ← List.cons_append]
    split
    case isTrue heq => simp [← heq, Nat.add_comm 1]
    case isFalse hne =>
      rw [h.read a (by omega), List.getElem?_append_left (by rw [List.length_cons]; omega)]

/-! ## Its steps -/

theorem exec_byte_head (hp : s.phase = .scan) : exec (.byte Config.head) s = .next (emit .none (acceptMarker s)) := by
  simp [exec, execByte, hp]

theorem exec_byte_payload (hp : s.phase = .asm) (hc : s.cnt.toNat < 12) (b : Byte) :
    exec (.byte b) s = .next (emit .none (storePayload b s)) := by
  simp [exec, execByte, hp, hc]

/-- R103: the marker starts an assembly whose fragment is the marker alone. -/
theorem step_marker (hp : s.phase = .scan) (hx : (nextInput s).byte? = some Config.head) :
    ∃ t, step s = .next t ∧ t.Assembled [] ∧ t.out = OutPorts.zero := by
  refine ⟨_, (step_byte hx).trans (exec_byte_head hp), ?_, rfl⟩
  exact (acceptMarker_assembled (consume s)).congr rfl rfl rfl

/-- R105, and R102 for an input that presents no byte: the fragment is extended by what the input presents, and nothing is
reported. -/
theorem State.Assembled.step (h : s.Assembled bs) (ha : (nextInput s).abandons = false)
    (hlen : bs.length + (nextInput s).byte?.toList.length ≤ 12) :
    ∃ t, step s = .next t ∧ t.Assembled (bs ++ (nextInput s).byte?.toList) ∧ t.out = OutPorts.zero := by
  cases hb : (nextInput s).byte? with
  | none =>
    obtain ⟨t, hstep, hphase, hcnt, hfb, -, -, hout⟩ := step_quiet ha hb
    exact ⟨t, hstep, by simpa using h.congr hphase hcnt hfb, hout⟩
  | some b =>
    have hlt : bs.length < 12 := by simpa [hb] using hlen
    have hs : (consume s).Assembled bs := h.congr rfl rfl rfl
    have hc : (consume s).cnt.toNat < 12 := hs.cnt ▸ hlt
    refine ⟨_, (step_byte hb).trans (exec_byte_payload hs.phase hc b), ?_, rfl⟩
    exact (hs.storePayload hlt b).congr rfl rfl rfl

/-! ## Its runs -/

/-- A run over inputs that abandon nothing and leave the frame incomplete extends the fragment by the bytes that they present, in
order, and reports nothing. -/
theorem State.Assembled.run : ∀ {xs rest : List Input} {s : State} {bs : List Byte}, s.Assembled bs →
    s.inputs = xs ++ rest → (∀ x ∈ xs, x.abandons = false) → bs.length + (presentedBytes xs).length ≤ 12 →
    ∃ t, stateAfter xs.length s = some t ∧ t.Assembled (bs ++ presentedBytes xs) ∧
      outputs xs.length s = List.replicate xs.length OutPorts.zero
  | [], _, s, bs, h, _, _, _ => ⟨s, rfl, by simpa [presentedBytes] using h, rfl⟩
  | x :: xs, rest, s, bs, h, hi, ha, hlen => by
    obtain ⟨hx, hxs⟩ := List.forall_mem_cons.1 ha
    have hnext : nextInput s = x := by rw [nextInput, hi]; rfl
    rw [presentedBytes_cons, List.length_append] at hlen
    obtain ⟨u, hstep, hu, hout⟩ := h.step (by rwa [hnext]) (by rw [hnext]; omega)
    rw [hnext] at hu
    have hui : u.inputs = xs ++ rest := by rw [step_inputs hstep, hi]; rfl
    obtain ⟨t, hrun, ht, houts⟩ := hu.run hui hxs (by rw [List.length_append]; omega)
    refine ⟨t, ?_, ?_, ?_⟩
    · rw [List.length_cons, stateAfter, hstep]
      exact hrun
    · rwa [presentedBytes_cons, ← List.append_assoc]
    · rw [List.length_cons, outputs, hstep, List.replicate_succ, ← houts, ← hout]

theorem observation_eq_nil {n : Nat} {s : State} (h : outputs n s = List.replicate n OutPorts.zero) : observation n s = [] := by
  rw [observation, h]
  simp [OutPorts.zero, kindNone]

end Sys2Proof.Machine
end

section
/-! PROOF. The frame buffer: who writes it, what the fragment holds, and that nothing else of it is observable. -/

namespace Sys2Proof.Proofs

open Sys2Proof Sys2Proof.Machine

/-- Settles O24, by the one write that an instruction can make to the buffer. -/
theorem bufferIsWrittenOnlyByTheAssembler : Obligations.BufferIsWrittenOnlyByTheAssembler := by
  intro i s t h
  obtain ⟨hi, hp, hfb⟩ | ⟨b, hi, hp, hfb⟩ | ⟨hfb, hmarker, hpayload⟩ := exec_fb_cases h
  case inl =>
    refine ⟨fun a ha => .inl ⟨hi, hp, ?_⟩, fun _ _ => ?_, ?_, exec_fbEpoch h, exec_inputs h⟩
    · exact Memory.eq_of_read_write_ne (hfb ▸ ha)
    · rw [hfb, Memory.read_write_same]; rfl
    · simp [hp]
  case inr.inl =>
    refine ⟨fun a ha => .inr ⟨b, hi, hp, ?_⟩, ?_, fun c hc _ => ?_, exec_fbEpoch h, exec_inputs h⟩
    · exact Memory.eq_of_read_write_ne (hfb ▸ ha)
    · simp [hp]
    · obtain rfl : b = c := Instr.byte.inj (hi.symm.trans hc)
      rw [hfb, Memory.read_write_same]
  case inr.inr =>
    refine ⟨fun a ha => ?_, fun hi hp => ?_, fun c hi hp => ?_, exec_fbEpoch h, exec_inputs h⟩
    · exact absurd (by rw [hfb]) ha
    · exact absurd hp (hmarker hi)
    · exact absurd hp (hpayload c hi)

/-- Settles O49: the marker starts a fragment, and every input of the run extends it by what it presents. -/
theorem fragmentHoldsTheBytesInArrivalOrder : Obligations.FragmentHoldsTheBytesInArrivalOrder := by
  intro s xs rest hp ha hlen
  obtain ⟨u, hstep, hu, hout⟩ := step_marker (s := s.withInputs (byteLine 0x02#8 :: xs ++ rest)) hp (byteLine_byte? _)
  obtain ⟨t, hrun, ht, houts⟩ := hu.run (step_inputs hstep) ha (by simpa using hlen)
  rw [List.nil_append] at ht
  have hafter : stateAfter (1 + xs.length) (s.withInputs (byteLine 0x02#8 :: xs ++ rest)) = some t := by
    rw [Nat.add_comm, stateAfter, hstep]
    exact hrun
  refine ⟨t, hafter, ht.phase, ht.cnt, ?inputs, ht.read 0 (Nat.zero_le _), fun j hj => ?payload, observation_eq_nil ?outputs⟩
  case inputs =>
    rw [stateAfter_inputs _ hafter]
    simp [Nat.add_comm 1]
  case payload =>
    rw [ht.read (1 + j) (by omega), Nat.add_comm 1, List.getElem?_cons_succ, List.getElem?_eq_getElem hj]
  case outputs =>
    rw [Nat.add_comm, outputs, hstep, List.replicate_succ, ← houts, ← hout]

/-- Settles O50: agreement is kept by every step, and states that agree answer alike. -/
theorem unwrittenBytesAreUnobservable : Obligations.UnwrittenBytesAreUnobservable :=
  fun _ _ h n => outputs_eq_of_agree n h

end Sys2Proof.Proofs
end

section
/-! SUPPORT. The encoding, format by format: the event word (R60, R61), the decoder-unit request (R65), and either laid out in
bytes (log entry 3). -/

namespace Sys2Proof

/-! ## The event word -/

@[simp] theorem eventKind_append (kind : BitVec 2) (data : Byte) : eventKind (kind ++ data) = kind :=
  BitVec.extractLsb'_append_eq_left

@[simp] theorem eventData_append (kind : BitVec 2) (data : Byte) : eventData (kind ++ data) = data :=
  BitVec.extractLsb'_append_eq_right

/-- The two fields are all of the word. -/
theorem eventKind_append_eventData (w : EventWord) : eventKind w ++ eventData w = w :=
  BitVec.extractLsb'_append_extractLsb' (len := 8) (w := 2)

/-- No kind is reserved (R63). -/
theorem eventKind_cases (w : EventWord) :
    eventKind w = 0b00#2 ∨ eventKind w = 0b01#2 ∨ eventKind w = 0b10#2 ∨ eventKind w = 0b11#2 := by
  generalize eventKind w = kind
  revert kind
  decide

section
variable {w : EventWord}

theorem decodeEvent_idle (h : eventKind w = 0b00#2) : decodeEvent w = .idle (eventData w) := by rw [decodeEvent, h]; rfl

theorem decodeEvent_byte (h : eventKind w = 0b01#2) : decodeEvent w = .byte (eventData w) := by rw [decodeEvent, h]; rfl

theorem decodeEvent_timeout (h : eventKind w = 0b10#2) : decodeEvent w = .timeout (eventData w) := by rw [decodeEvent, h]; rfl

theorem decodeEvent_eos (h : eventKind w = 0b11#2) : decodeEvent w = .eos (eventData w) := by rw [decodeEvent, h]; rfl

end

/-- An event's word is its kind above its data, whichever kind it is. -/
theorem encode_decodeEvent (w : EventWord) : encode (decodeEvent w) = .event w := by
  have hw := eventKind_append_eventData w
  obtain h | h | h | h := eventKind_cases w <;> rw [h] at hw
  · rw [decodeEvent_idle h, encode, hw]
  · rw [decodeEvent_byte h, encode, hw]
  · rw [decodeEvent_timeout h, encode, hw]
  · rw [decodeEvent_eos h, encode, hw]

/-! ## The request -/

/-- R65: byte `i` of the candidate buffer. -/
theorem getElem_unpackFrame (frame : BitVec 112) (i : Nat) (h : i < 14) : (unpackFrame frame)[i] = requestByte frame i := by
  simp [unpackFrame]

theorem encode_decodeRequest (r : DecoderRequest) : encode (decodeRequest r) = .request r := by
  rw [decodeRequest, encode, packBytes_unpackFrame]

/-! ## The port -/

theorem decodePort_encode (i : Instr) : decodePort (encode i) = i := by
  cases i with
  | idle data => exact (decodeEvent_idle (eventKind_append _ data)).trans (by rw [eventData_append])
  | byte data => exact (decodeEvent_byte (eventKind_append _ data)).trans (by rw [eventData_append])
  | timeout data => exact (decodeEvent_timeout (eventKind_append _ data)).trans (by rw [eventData_append])
  | eos data => exact (decodeEvent_eos (eventKind_append _ data)).trans (by rw [eventData_append])
  | decode len frame => rw [encode, decodePort, decodeRequest, unpackFrame_packBytes]

theorem encode_decodePort (p : PortWord) : encode (decodePort p) = p := by
  cases p with
  | event w => exact encode_decodeEvent w
  | request r => exact encode_decodeRequest r

/-! ## The layout in bytes -/

theorem portWordOfBytes_event {lo hi : Byte} (h : hi.extractLsb' 2 6 = 0) :
    portWordOfBytes [lo, hi] = .ok (.event (hi.extractLsb' 0 2 ++ lo)) :=
  if_pos h

/-- Fifteen bytes are a request: they are neither none nor the two of an event word. -/
theorem portWordOfBytes_request (len : Byte) {frame : List Byte} (h : frame.length = 14) :
    portWordOfBytes (len :: frame) = .ok (.request ⟨len, packBytes 112 frame⟩) := by
  match frame, h with
  | _ :: _ :: _, h => exact if_pos h

/-- Laying a port's word out in bytes loses none of it. -/
theorem portWordOfBytes_toBytes (p : PortWord) : portWordOfBytes p.toBytes = .ok p := by
  cases p with
  | event w =>
    have hkind : ((eventKind w).setWidth 8 : Byte).extractLsb' 0 2 = eventKind w := by
      rw [BitVec.extractLsb'_setWidth_of_le (by omega), BitVec.extractLsb'_eq_self]
    have hword : ((eventKind w).setWidth 8 : Byte).extractLsb' 0 2 ++ eventData w = w := by
      rw [hkind, eventKind_append_eventData]
    exact (portWordOfBytes_event (Laws.EncodedWellFormed.highBits_setWidth _)).trans
      (congrArg (fun v => Except.ok (PortWord.event v)) hword)
  | request r =>
    rw [PortWord.toBytes, portWordOfBytes_request _ (by simp), packBytes_unpackFrame]

theorem decodeBytes_encodeBytes (i : Instr) : decodeBytes (encodeBytes i) = .ok i := by
  rw [encodeBytes, decodeBytes_of_portWordOfBytes (portWordOfBytes_toBytes _), decodePort_encode]

end Sys2Proof
end

section
/-! PROOF. The encoding of the instructions: decode and encode are inverse to each other, and where each bit stands. -/

namespace Sys2Proof.Proofs

open Sys2Proof Sys2Proof.Machine

/-- Settles O1, by the round trips of the port's word and of its bytes. -/
theorem everyInstructionDecodesFromItsEncoding : Obligations.EveryInstructionDecodesFromItsEncoding :=
  ⟨decodeBytes_encodeBytes, decodePort_encode, encode_decodePort⟩

/-- Settles O4, one clause per kind. -/
theorem eventKindSelectsTheInstruction : Obligations.EventKindSelectsTheInstruction :=
  fun _ => ⟨decodeEvent_idle, decodeEvent_byte, decodeEvent_timeout, decodeEvent_eos⟩

/-- Settles O5: the frame of the request is the one `unpackFrame` reads. -/
theorem requestBytesStandHighestFirst : Obligations.RequestBytesStandHighestFirst :=
  fun r => ⟨unpackFrame r.frame, rfl, getElem_unpackFrame r.frame⟩

/-- Settles O6, by evaluating the decoder on the written-out words. -/
theorem writtenOutWordsDecode : Obligations.WrittenOutWordsDecode := by
  refine ⟨?idle, ?marker, ?letter, ?timeout, ?eos, ?request⟩
  all_goals decide

/-- Settles O7: of the kinds other than BYTE none has a meaning that reads its data. -/
theorem dataBitsMatterOnlyForByte : Obligations.DataBitsMatterOnlyForByte := by
  intro w w' s hkind hbyte
  change eventKind w = eventKind w' at hkind
  obtain h | h | h | h := eventKind_cases w
  · rw [decodeEvent_idle h, decodeEvent_idle (hkind ▸ h)]; rfl
  · exact absurd h hbyte
  · rw [decodeEvent_timeout h, decodeEvent_timeout (hkind ▸ h)]; rfl
  · rw [decodeEvent_eos h, decodeEvent_eos (hkind ▸ h)]; rfl

end Sys2Proof.Proofs
end

section
/-! SUPPORT. The output word: how bytes fill a port from the top (R67, R68), and which output a step's instruction has (R66,
R250). -/

namespace Sys2Proof

theorem toNat_append_eq_add {m n : Nat} (x : BitVec m) (y : BitVec n) : (x ++ y).toNat = x.toNat * 2 ^ n + y.toNat := by
  rw [BitVec.toNat_append, ← Nat.shiftLeft_add_eq_or_of_lt y.isLt, Nat.shiftLeft_eq]

end Sys2Proof

namespace Sys2Proof.Machine

/-! ## A field's bytes in `out_value` -/

/-- Two bytes stand at the top, with 48 zero bits below them (R68). -/
theorem leftAligned_pair (x y : Byte) : leftAligned [x, y] = x ++ y ++ 0#48 := by
  apply BitVec.eq_of_toNat_eq
  have hpacked : (leftAligned [x, y]).toNat = x.toNat * 256 ^ 7 + y.toNat * 256 ^ 6 := by
    have := x.isLt
    have := y.isLt
    simp [leftAligned, packBytes, beNat]
    omega
  rw [hpacked, toNat_append_eq_add, toNat_append_eq_add]
  simp
  omega

/-- Eight bytes fill the port and leave nothing to zero. -/
theorem leftAligned_of_length_eq_eight {bs : List Byte} (h : bs.length = 8) : leftAligned bs = packBytes 64 bs := by
  rw [leftAligned, h, Nat.sub_self, List.replicate_zero, List.append_nil]

/-- Byte `k` of a vector that fills a port stands `k` byte positions below the top (R67, R68). -/
theorem packBytes_toList_byte {n w : Nat} (v : Vector Byte n) (hw : w = 8 * n) (k : Nat) (h : k < n) :
    (packBytes w v.toList).extractLsb' (w - 8 - 8 * k) 8 = v[k] := by
  rw [packBytes_byte v.toList (by rw [Vector.length_toList, hw]) k (by rwa [Vector.length_toList]), Vector.getElem_toList]

/-! ## The output of an instruction -/

variable {i : Instr} {s t : State}

/-- What an instruction that gives a next state reports: a decode result when it completes a frame, END when it ends the run, and
NONE otherwise. -/
theorem exec_out_cases (h : exec i s = .next t) :
    ((∃ r, t.out = (Output.ofResult r).toPorts) ∧ (∃ b, i = .byte b) ∧ s.phase = .asm ∧ s.cnt.toNat = 12) ∨
    (t.out = Output.ended.toPorts ∧ (∃ d, i = .eos d) ∧ s.phase ≠ .ended) ∨
    (t.out = OutPorts.zero ∧ ¬((∃ b, i = .byte b) ∧ s.phase = .asm ∧ s.cnt.toNat = 12) ∧
      ¬((∃ d, i = .eos d) ∧ s.phase ≠ .ended)) := by
  obtain ⟨rfl, hquiet⟩ | ⟨rfl, hp, rfl⟩ | ⟨b, rfl, -, hc, rfl⟩ | ⟨b, rfl, hp, hc, rfl⟩ | ⟨_, rfl, -, rfl⟩ | ⟨d, rfl, hp, rfl⟩ |
    ⟨_, _, rfl, rfl⟩ := exec_cases h
  case inl =>
    refine .inr (.inr ⟨rfl, ?_⟩)
    obtain ⟨d, rfl⟩ | ⟨hp, -⟩ | ⟨hp, ⟨b, rfl, -⟩ | ⟨d, rfl⟩⟩ := hquiet
    · simp
    · simp [hp]
    · simp [hp]
    · simp
  · exact .inr (.inr ⟨rfl, by simp [hp], by simp⟩)
  · exact .inr (.inr ⟨rfl, by omega, by simp⟩)
  · exact .inl ⟨⟨_, completeFrame_out s b⟩, ⟨b, rfl⟩, hp, hc⟩
  · exact .inr (.inr ⟨rfl, by simp, by simp⟩)
  · exact .inr (.inl ⟨rfl, ⟨d, rfl⟩, hp⟩)
  · exact .inr (.inr ⟨rfl, by simp, by simp⟩)

end Sys2Proof.Machine
end

section
/-! PROOF. When each kind of output is emitted, and where its payload stands on the ports. -/

namespace Sys2Proof.Proofs

open Sys2Proof Sys2Proof.Machine

/-- Settles O26, by the three things an instruction can report. -/
theorem outputsAreEmittedInTheirOwnStep : Obligations.OutputsAreEmittedInTheirOwnStep := by
  intro i s t h
  obtain ⟨⟨r, hout⟩, hbyte, hp, hc⟩ | ⟨hout, heos, hp⟩ | ⟨hout, hbyte, heos⟩ := exec_out_cases h
  case inl =>
    obtain ⟨b, rfl⟩ := hbyte
    have hkind : t.out.kind = kindTag ∨ t.out.kind = kindErr := hout ▸ ofResult_kind r
    refine ⟨iff_of_true hkind ⟨⟨b, rfl⟩, hp, hc⟩, iff_of_false ?_ (by simp), fun hnone => ?_⟩
    · obtain hk | hk := hkind <;> rw [hk] <;> decide
    · obtain hk | hk := hkind <;> exact absurd (hk.symm.trans hnone) (by decide)
  case inr.inl =>
    obtain ⟨d, rfl⟩ := heos
    have hkind : t.out.kind = kindEnd := congrArg OutPorts.kind hout
    rw [hkind]
    exact ⟨iff_of_false (by decide) (by simp), iff_of_true rfl ⟨⟨d, rfl⟩, hp⟩, fun hnone => absurd hnone (by decide)⟩
  case inr.inr =>
    rw [hout]
    exact ⟨iff_of_false (by decide) hbyte, iff_of_false (by decide) heos, fun _ => rfl⟩

/-- Settles O44: the two strings of a record fill their ports byte by byte, and every other field is put as it is. -/
theorem tagPayloadPlaces : Obligations.TagPayloadPlaces :=
  fun r => ⟨rfl, rfl, packBytes_toList_byte r.rawTag rfl, packBytes_toList_byte r.formattedTag rfl, rfl, rfl, rfl, rfl, rfl⟩

/-- Settles O45, error by error: the codes and contexts are put as they are, and a field's bytes are packed from the top. -/
theorem errorPayloadPlaces : Obligations.ErrorPayloadPlaces := by
  refine ⟨fun e => ?record, fun n => ⟨rfl, rfl, rfl, rfl, rfl⟩, fun h t => ⟨rfl, rfl, rfl, rfl, rfl⟩, fun fld v => ?hex,
    fun fld x y => leftAligned_pair x y, fun fld v k h => ?field, fun c x => ⟨rfl, rfl, rfl, rfl, rfl⟩⟩
  case record => cases e <;> exact ⟨rfl, rfl, rfl, rfl⟩
  case hex => cases fld <;> exact ⟨rfl, rfl, rfl, rfl⟩
  case field =>
    have hvalue : (errPorts (.invalidHex fld v.toList)).value = packBytes 64 v.toList :=
      leftAligned_of_length_eq_eight v.length_toList
    rw [hvalue]
    exact packBytes_toList_byte v rfl k h

end Sys2Proof.Proofs
end

section
/-! SUPPORT. A whole frame through the block: its last step, and the run over its 14 bytes (R103 to R106, R76). -/

namespace Sys2Proof.Machine

variable {s : State} {bs : List Byte}

/-! ## The step that completes a frame -/

theorem exec_byte_last (hp : s.phase = .asm) (hc : s.cnt.toNat = 12) (b : Byte) :
    exec (.byte b) s = .next (completeFrame b s) := by
  simp [exec, execByte, hp, hc]

/-- The snapshot that is decoded is the fragment and the last byte, whatever stood at offset 13 before (R43, R106). -/
theorem State.Assembled.snapshot (h : s.Assembled bs) (hlen : bs.length = 12) (b : Byte) {f : RawFrame}
    (hf : f.toList = Config.head :: bs ++ [b]) : (memWrite 13 b s).snapshot = f := by
  refine Vector.ext fun a ha => ?_
  have hfa : some f[a] = (Config.head :: bs ++ [b])[a]? := by
    rw [← hf, Vector.getElem?_toList, Vector.getElem?_eq_getElem ha]
  rw [snapshot_get, fbByte_memWrite]
  split
  case isTrue heq =>
    subst heq
    simpa [hlen] using hfa.symm
  case isFalse hne =>
    have hread : s.fb.read a = some f[a] := by
      rw [h.read a (by omega), hfa, List.getElem?_append_left (by rw [List.length_cons]; omega)]
    exact State.fbByte_of_read hread

/-- R106: the byte after a fragment of twelve completes the frame, and its decode result is reported. -/
theorem State.Assembled.complete (h : s.Assembled bs) (hlen : bs.length = 12) {b : Byte}
    (hx : (nextInput s).byte? = some b) {f : RawFrame} (hf : f.toList = Config.head :: bs ++ [b]) :
    ∃ t, Machine.step s = .next t ∧ t.phase = .scan ∧ t.cnt = 0#4 ∧ t.out = reportPorts f := by
  have hs : (consume s).Assembled bs := h.congr rfl rfl rfl
  refine ⟨_, (step_byte hx).trans (exec_byte_last hs.phase (hs.cnt.trans hlen) b), rfl, rfl, ?_⟩
  rw [completeFrame_out, hs.snapshot hlen b hf, reportPorts]

/-! ## The run over a frame -/

theorem stateAfter_succ {t : State} (h : step s = .next t) (n : Nat) : stateAfter (n + 1) s = stateAfter n t := by
  rw [stateAfter, h]

theorem outputs_succ {t : State} (h : step s = .next t) (n : Nat) : outputs (n + 1) s = t.out :: outputs n t := by
  rw [outputs, h]

@[simp] theorem byteLine_abandons (b : Byte) : (byteLine b).abandons = false := by
  rw [Input.abandons, inputInstr_byteLine]

@[simp] theorem presentedBytes_byteLines (bs : List Byte) : presentedBytes (byteLines bs) = bs := by
  simp [presentedBytes, byteLines, List.filterMap_map]

/-- A frame that starts with the marker is the marker, twelve bytes and a last one. -/
theorem toList_eq_of_head {f : RawFrame} (hf : headByte f = Config.head) :
    ∃ (bs : List Byte) (b : Byte), bs.length = 12 ∧ f.toList = Config.head :: bs ++ [b] := by
  refine ⟨[f[1], f[2], f[3], f[4], f[5], f[6], f[7], f[8], f[9], f[10], f[11], f[12]], f[13], rfl, ?_⟩
  rw [← hf]
  refine List.ext_getElem (by simp) fun i hi _ => ?_
  rw [Vector.length_toList] at hi
  interval_cases i <;> rfl

/-- The marker in SCAN, and then inputs that abandon nothing and leave the frame incomplete: a fragment of the bytes they present,
and no report (R28, R103). -/
theorem run_fragment {xs rest : List Input} (hp : s.phase = .scan) (hi : s.inputs = byteLine Config.head :: (xs ++ rest))
    (ha : ∀ x ∈ xs, x.abandons = false) (hlen : (presentedBytes xs).length ≤ 12) :
    ∃ t, stateAfter (xs.length + 1) s = some t ∧ t.Assembled (presentedBytes xs) ∧ t.inputs = rest ∧
      outputs (xs.length + 1) s = List.replicate (xs.length + 1) OutPorts.zero := by
  have hnext : (nextInput s).byte? = some Config.head := by rw [nextInput, hi, List.headD_cons, byteLine_byte?]
  obtain ⟨u, hstep, hu, hout⟩ := step_marker hp hnext
  have hui : u.inputs = xs ++ rest := by rw [step_inputs hstep, hi, List.tail_cons]
  obtain ⟨t, hrun, ht, houts⟩ := hu.run hui ha (by simpa using hlen)
  refine ⟨t, (stateAfter_succ hstep _).trans hrun, ht, ?_, ?_⟩
  · rw [stateAfter_inputs _ hrun, hui, List.drop_left]
  · rw [outputs_succ hstep, hout, houts, List.replicate_succ]

/-- The 14 bytes of a frame that starts with the marker, presented from SCAN, report its decode result with the last one and
nothing before. -/
theorem run_frameLines {f : RawFrame} {rest : List Input} (hp : s.phase = .scan) (hf : headByte f = Config.head)
    (hi : s.inputs = frameLines f ++ rest) :
    outputs 14 s = List.replicate 13 OutPorts.zero ++ [reportPorts f] ∧
      ∃ t, stateAfter 14 s = some t ∧ t.phase = .scan ∧ t.cnt = 0#4 ∧ t.inputs = rest := by
  obtain ⟨bs, b, hlen, hbytes⟩ := toList_eq_of_head hf
  have hlines : s.inputs = byteLine Config.head :: (byteLines bs ++ byteLine b :: rest) := by
    simp [hi, frameLines, hbytes, byteLines]
  have hcount : (byteLines bs).length + 1 = 13 := by rw [byteLines, List.length_map, hlen]
  obtain ⟨u, hrun, hu, hui, houts⟩ := run_fragment hp hlines (by simp [byteLines]) (by simp [hlen])
  rw [presentedBytes_byteLines] at hu
  rw [hcount] at hrun houts
  have hnext : (nextInput u).byte? = some b := by rw [nextInput, hui, List.headD_cons, byteLine_byte?]
  obtain ⟨t, hlast, htp, htc, htout⟩ := hu.complete hlen hnext hbytes
  refine ⟨?_, t, ?_, htp, htc, by rw [step_inputs hlast, hui, List.tail_cons]⟩
  · rw [outputs_add 13 1 hrun, houts, outputs_succ hlast, htout, outputs]
  · rw [stateAfter_add 13 1, hrun, Option.bind_some, stateAfter_succ hlast, stateAfter]

end Sys2Proof.Machine
end

section
/-! SUPPORT. The frame that GOODFRAME sends decodes (R76, R130). -/

namespace Sys2Proof.Machine

/-! ## A frame of which every check holds -/

/-- The tokens are the version and the four pairs of the tag, so a frame that has them has a tag of eight digits (R194). -/
theorem hex8_rawTag_of_checksumTokens {f : RawFrame} {t : Vector Byte 5} (h : checksumTokens f = some t) :
    ∃ n, hex8 (rawTag f) = some n := by
  obtain ⟨t0, t1, t2, t3, t4, -, e1, e2, e3, e4, -⟩ := checksumTokens_eq_some.1 h
  obtain ⟨_, _, h3, h4, -⟩ := hex2_eq_some.1 e1
  obtain ⟨_, _, h5, h6, -⟩ := hex2_eq_some.1 e2
  obtain ⟨_, _, h7, h8, -⟩ := hex2_eq_some.1 e3
  obtain ⟨_, _, h9, h10, -⟩ := hex2_eq_some.1 e4
  rw [← Option.ne_none_iff_exists', ne_eq, hex8_eq_none]
  simp [rawTag, h3, h4, h5, h6, h7, h8, h9, h10]

/-- The markers right, the tokens' XOR sent as the checksum: the frame decodes, to the record of its fields (R130, R136). -/
theorem decodeFrame_eq_ok {f : RawFrame} {t : Vector Byte 5} (hhead : headByte f = Config.head)
    (htail : tailByte f = Config.tail) (ht : checksumTokens f = some t)
    (hsent : hex2 f[11] f[12] = some (computedChecksum t)) :
    ∃ r, decodeFrame 14#8 f = .ok r ∧ r.rawTag = rawTag f ∧ hex2 f[1] f[2] = some r.protocolVersion ∧
      ∃ n, hex8 (rawTag f) = some n ∧ r.formattedTag = dec10 n := by
  obtain ⟨n, hn⟩ := hex8_rawTag_of_checksumTokens ht
  obtain ⟨version, -, -, -, -, hversion, -⟩ := checksumTokens_eq_some.1 ht
  refine ⟨⟨version, rawTag f, dec10 n⟩, ?_, rfl, hversion, n, hn, rfl⟩
  rw [decodeFrame_eq, if_neg (by simp), if_neg (by simp [hhead, htail])]
  simp [hversion, hsent, ht, hn]

/-! ## The checksum characters that GOODFRAME writes -/

theorem hexval_upperHex {d : Nat} (h : d < 16) : hexval (upperHex d) = some d := by
  revert d
  decide

/-- The two uppercase digits of a byte read back as the byte. -/
theorem hex2_upperHex (c : Byte) : hex2 (upperHex (c.toNat / 16)) (upperHex (c.toNat % 16)) = some c := by
  have hc := c.isLt
  refine hex2_eq_some.2 ⟨_, _, hexval_upperHex (by omega), hexval_upperHex (by omega), ?_⟩
  rw [Nat.div_add_mod, BitVec.ofNat_toNat, BitVec.setWidth_eq]

/-! ## The frame -/

section
variable (v : Vector Byte 2) (t : Vector Byte 8) (hi lo : Byte)

/-- The tag's characters stand in the frame as they were given. -/
theorem rawTag_frameWith : rawTag (frameWith v t hi lo) = t := by
  refine Vector.ext fun i h => ?_
  interval_cases i <;> rfl

/-- The checksum characters lie outside the region that the tokens are read from (R170). -/
theorem checksumTokens_frameWith (hi' lo' : Byte) :
    checksumTokens (frameWith v t hi lo) = checksumTokens (frameWith v t hi' lo') :=
  rfl

end

variable {v : Vector Byte 2} {t : Vector Byte 8} {f : RawFrame}

theorem goodFrame_eq_some : goodFrame v t = some f ↔ ∃ tokens, checksumTokens (frameWith v t 0 0) = some tokens ∧
    frameWith v t (upperHex ((computedChecksum tokens).toNat / 16)) (upperHex ((computedChecksum tokens).toNat % 16)) = f := by
  simp [goodFrame, Option.bind_eq_some_iff]

theorem headByte_goodFrame (h : goodFrame v t = some f) : headByte f = Config.head := by
  obtain ⟨tokens, -, rfl⟩ := goodFrame_eq_some.1 h
  rfl

/-- R141: the frame of GOODFRAME decodes to the version and the tag that it was made of. -/
theorem decodeFrame_goodFrame (h : goodFrame v t = some f) :
    ∃ r, decodeFrame 14#8 f = .ok r ∧ r.rawTag = t ∧ hex2 v[0] v[1] = some r.protocolVersion ∧
      ∃ n, hex8 t = some n ∧ r.formattedTag = dec10 n := by
  obtain ⟨tokens, htokens, rfl⟩ := goodFrame_eq_some.1 h
  have hdecoded := decodeFrame_eq_ok (f := frameWith v t _ _) rfl rfl
    ((checksumTokens_frameWith v t _ _ 0 0).trans htokens) (hex2_upperHex (computedChecksum tokens))
  rwa [rawTag_frameWith] at hdecoded

end Sys2Proof.Machine
end

section
/-! PROOF. GOODFRAME through the whole block. -/

namespace Sys2Proof.Proofs

open Sys2Proof Sys2Proof.Machine

/-- Settles O55: the run over the frame's bytes reports its decode result alone, and the frame decodes to what it was made of. -/
theorem goodFrameIsReportedAsItsTag : Obligations.GoodFrameIsReportedAsItsTag := by
  intro s v t f hp hgood
  obtain ⟨r, hdecode, hrecord⟩ := decodeFrame_goodFrame hgood
  obtain ⟨houts, -⟩ := run_frameLines (s := s.withInputs (frameLines f)) (rest := []) hp (headByte_goodFrame hgood) (by simp)
  have hreport : reportPorts f = tagPorts r := by rw [reportPorts, hdecode]; rfl
  refine ⟨r, ?_, hrecord⟩
  rw [observation, houts, hreport]
  simp [OutPorts.zero, tagPorts, kindNone, kindTag]

end Sys2Proof.Proofs
end

section
/-! SUPPORT. The rules of the synchronizer as equations, one for each event and phase that the laws of an assembly do not already
give (R101, R102, R104, R107 to R110), and the one step that stops ruled out under the invariant (R100). -/

namespace Sys2Proof.Machine

variable {i : Instr} {s t : State}

/-! ## One rule each -/

/-- R101: whatever the instruction, in ENDED nothing but the output ports changes, and the block emits NONE. -/
theorem exec_ended (hp : s.phase = .ended) (i : Instr) : ∃ d', exec i s = .next { s with out := OutPorts.zero, duOut := d' } := by
  cases i with
  | idle _ => exact ⟨none, rfl⟩
  | byte b => exact ⟨none, (by simp [exec, execByte, hp] : exec (.byte b) s = .next (emit .none s))⟩
  | timeout d => exact ⟨none, (by simp [exec, execTimeout, hp] : exec (.timeout d) s = .next (emit .none s))⟩
  | eos d => exact ⟨none, (by simp [exec, execEos, hp] : exec (.eos d) s = .next (emit .none s))⟩
  | decode _ _ => exact ⟨_, rfl⟩

theorem exec_byte_discarded (hp : s.phase = .scan) {b : Byte} (hb : b ≠ Config.head) :
    exec (.byte b) s = .next (emit .none s) := by
  simp [exec, execByte, hp, hb]

theorem exec_timeout_scan (hp : s.phase = .scan) (d : Byte) : exec (.timeout d) s = .next (emit .none s) := by
  simp [exec, execTimeout, hp]

theorem exec_timeout_asm (hp : s.phase = .asm) (d : Byte) :
    exec (.timeout d) s = .next (emit .none (leaveAssembly .scan s)) := by
  simp [exec, execTimeout, hp]

theorem exec_eos (hp : s.phase ≠ .ended) (d : Byte) : exec (.eos d) s = .next (emit .ended (leaveAssembly .ended s)) := by
  cases h : s.phase with
  | scan => simp [exec, execEos, h]
  | asm => simp [exec, execEos, h]
  | ended => exact absurd h hp

/-! ## Changes of phase -/

/-- Which instruction makes which change of phase (R103, R106, R108 to R110), and that the count is 0 after it (R22). -/
theorem exec_phase_cases (h : exec i s = .next t) (hne : t.phase ≠ s.phase) :
    (s.phase = .scan ∧ t.phase = .asm ∧ i = .byte Config.head ∧ t.cnt = 0#4) ∨
    (s.phase = .asm ∧ t.phase = .scan ∧ t.cnt = 0#4 ∧ ((∃ d, i = .timeout d) ∨ (s.cnt.toNat = 12 ∧ ∃ b, i = .byte b))) ∨
    (s.phase ≠ .ended ∧ t.phase = .ended ∧ t.cnt = 0#4 ∧ ∃ d, i = .eos d) := by
  obtain ⟨rfl, -⟩ | ⟨hi, hp, rfl⟩ | ⟨_, -, -, -, rfl⟩ | ⟨b, hi, hp, hc, rfl⟩ | ⟨d, hi, hp, rfl⟩ | ⟨d, hi, hp, rfl⟩ |
    ⟨_, _, -, rfl⟩ := exec_cases h
  · exact absurd rfl hne
  · exact .inl ⟨hp, rfl, hi, rfl⟩
  · exact absurd rfl hne
  · exact .inr (.inl ⟨hp, rfl, rfl, .inr ⟨hc, b, hi⟩⟩)
  · exact .inr (.inl ⟨hp, rfl, rfl, .inl ⟨d, hi⟩⟩)
  · exact .inr (.inr ⟨hp, rfl, rfl, d, hi⟩)
  · exact absurd rfl hne

/-! ## No stop under the invariant -/

/-- The count at which a BYTE stops is one that the invariant excludes (R22, R28). -/
theorem State.Inv.exec_completes (hs : s.Inv) (i : Instr) : ∃ t, exec i s = .next t := by
  by_contra hstop
  obtain ⟨_, -, hp, hc, -⟩ := exec_stops (not_exists.1 hstop)
  obtain ⟨-, hasm, -⟩ := hs
  obtain ⟨-, hle, -⟩ := hasm hp
  omega

theorem State.Inv.step_completes (hs : s.Inv) : ∃ t, step s = .next t := by
  unfold step
  cases fetch s with
  | none => exact ⟨_, rfl⟩
  | some i => exact (consume_inv hs).exec_completes i

/-- A run goes on since each of its steps completes and keeps the invariant. -/
theorem State.Inv.safe (hs : s.Inv) : s.Safe := by
  intro n
  induction n generalizing s with
  | zero => rfl
  | succ n ih =>
    obtain ⟨t, ht⟩ := hs.step_completes
    rw [stateAfter_succ ht]
    exact ih (step_keeps_inv hs ht)

end Sys2Proof.Machine
end

section
/-! SUPPORT. The block outside an assembly: scanning over inputs that start no frame (R104, R107), and ended (R101). -/

namespace Sys2Proof.Machine

variable {s t : State}

theorem observation_add {m : Nat} (n : Nat) (h : stateAfter m s = some t) :
    observation (m + n) s = observation m s ++ observation n t := by
  rw [observation, outputs_add m n h, List.filter_append]
  rfl

/-! ## The presented input -/

theorem nextInput_of_inputs_cons {x : Input} {rest : List Input} (h : s.inputs = x :: rest) : nextInput s = x := by
  rw [nextInput, h, List.headD_cons]

theorem fetch_eq_none_iff : fetch s = none ↔ ∃ w rest, s.inputs = .event true w :: rest := by
  constructor
  · intro h
    cases hi : s.inputs with
    | nil => simp [fetch_of_inputs_nil hi] at h
    | cons x rest =>
      rw [fetch_of_inputs_cons hi] at h
      match x, h with
      | .event true w, _ => exact ⟨w, rest, rfl⟩
  · rintro ⟨w, rest, hi⟩
    rw [fetch_of_inputs_cons hi]
    rfl

/-- Where no presented input is a reset, neither is the next one: past the end of the list it is IDLE. -/
theorem exists_fetch_of_no_reset (h : ∀ x ∈ s.inputs, x.resets = false) : ∃ i, fetch s = some i := by
  rw [← Option.ne_none_iff_exists', ne_eq, fetch_eq_none_iff]
  rintro ⟨w, rest, hi⟩
  exact absurd (h _ (hi ▸ List.mem_cons_self)) (by simp [Input.resets, inputInstr])

theorem no_reset_of_step (h : ∀ x ∈ s.inputs, x.resets = false) (hstep : step s = .next t) :
    ∀ x ∈ t.inputs, x.resets = false :=
  fun x hx => h x (List.mem_of_mem_tail (step_inputs hstep ▸ hx))

/-! ## Scanning -/

/-- R102 and R104: in SCAN an input that neither abandons nor is the marker leaves the block as it was. -/
theorem step_scan_noise (hp : s.phase = .scan) (ha : (nextInput s).abandons = false)
    (hb : (nextInput s).byte? ≠ some Config.head) :
    ∃ t, step s = .next t ∧ t.phase = .scan ∧ t.cnt = s.cnt ∧ t.out = OutPorts.zero := by
  cases hx : (nextInput s).byte? with
  | none =>
    obtain ⟨t, hstep, hphase, hcnt, -, -, -, hout⟩ := step_quiet ha hx
    exact ⟨t, hstep, hphase.trans hp, hcnt, hout⟩
  | some b =>
    have hne : b ≠ Config.head := fun h => hb (h ▸ hx)
    exact ⟨_, (step_byte hx).trans (exec_byte_discarded (s := consume s) hp hne), hp, rfl, rfl⟩

/-- Noise in SCAN, however long, is discarded without a report. -/
theorem run_scan_noise : ∀ {xs rest : List Input} {s : State}, s.phase = .scan → s.inputs = xs ++ rest →
    (∀ x ∈ xs, x.abandons = false ∧ x.byte? ≠ some Config.head) →
    ∃ t, stateAfter xs.length s = some t ∧ t.phase = .scan ∧ t.cnt = s.cnt ∧ t.inputs = rest ∧
      outputs xs.length s = List.replicate xs.length OutPorts.zero
  | [], _, s, hp, hi, _ => ⟨s, rfl, hp, rfl, hi, rfl⟩
  | x :: xs, rest, s, hp, hi, hnoise => by
    obtain ⟨⟨ha, hb⟩, hxs⟩ := List.forall_mem_cons.1 hnoise
    have hnext : nextInput s = x := nextInput_of_inputs_cons hi
    obtain ⟨u, hstep, hup, huc, hout⟩ := step_scan_noise hp (by rwa [hnext]) (by rwa [hnext])
    have hui : u.inputs = xs ++ rest := by rw [step_inputs hstep, hi]; rfl
    obtain ⟨t, hrun, htp, htc, hti, houts⟩ := run_scan_noise hup hui hxs
    refine ⟨t, (stateAfter_succ hstep _).trans hrun, htp, htc.trans huc, hti, ?_⟩
    rw [List.length_cons, outputs_succ hstep, hout, houts, List.replicate_succ]

/-! ## Ended -/

/-- R101: without a reset, a step in ENDED changes nothing of the block and emits NONE. -/
theorem step_ended (hp : s.phase = .ended) (h : ∀ x ∈ s.inputs, x.resets = false) :
    ∃ t, step s = .next t ∧ t.phase = .ended ∧ t.cnt = s.cnt ∧ t.fb = s.fb ∧ t.out = OutPorts.zero := by
  obtain ⟨i, hi⟩ := exists_fetch_of_no_reset h
  obtain ⟨d', hexec⟩ := exec_ended (s := consume s) hp i
  exact ⟨_, (step_of_fetch hi).trans hexec, hp, rfl, rfl, rfl⟩

theorem run_ended (n : Nat) (hp : s.phase = .ended) (h : ∀ x ∈ s.inputs, x.resets = false) :
    outputs n s = List.replicate n OutPorts.zero ∧
      ∃ t, stateAfter n s = some t ∧ t.phase = .ended ∧ t.cnt = s.cnt ∧ t.fb = s.fb := by
  induction n generalizing s with
  | zero => exact ⟨rfl, s, rfl, hp, rfl, rfl⟩
  | succ n ih =>
    obtain ⟨u, hstep, hup, huc, hufb, hout⟩ := step_ended hp h
    obtain ⟨houts, t, hrun, htp, htc, htfb⟩ := ih hup (no_reset_of_step h hstep)
    refine ⟨?_, t, (stateAfter_succ hstep n).trans hrun, htp, htc.trans huc, htfb.trans hufb⟩
    rw [outputs_succ hstep, hout, houts, List.replicate_succ]

/-- R109, R110: the step that emits END has gone to ENDED. -/
theorem step_phase_of_end (h : step s = .next t) (hout : t.out.kind = kindEnd) : t.phase = .ended := by
  obtain ⟨-, rfl⟩ | ⟨i, -, hexec⟩ := step_cases h
  · exact absurd hout (by rw [takeReset_out]; decide)
  · obtain ⟨-, heos, -⟩ := Proofs.outputsAreEmittedInTheirOwnStep i _ _ hexec
    obtain ⟨⟨d, rfl⟩, hp⟩ := heos.1 hout
    rw [exec_eos hp, Host.Outcome.next.injEq] at hexec
    rw [← hexec]
    rfl

/-- Without a reset, every output after an END is NONE. -/
theorem outputs_after_end : ∀ (n : Nat) {s : State} {j k : Nat} {o o' : OutPorts}, (∀ x ∈ s.inputs, x.resets = false) →
    (outputs n s)[j]? = some o → o.kind = kindEnd → j < k → (outputs n s)[k]? = some o' → o' = OutPorts.zero
  | 0, s, j, k, o, o', _, hj, _, _, _ => by simp [outputs] at hj
  | n + 1, s, j, k + 1, o, o', hreset, hj, hend, hlt, hk => by
    cases hstep : step s with
    | next t =>
      rw [outputs_succ hstep] at hj hk
      rw [List.getElem?_cons_succ] at hk
      have htreset := no_reset_of_step hreset hstep
      cases j with
      | zero =>
        obtain rfl : t.out = o := by simpa using hj
        obtain ⟨houts, -⟩ := run_ended n (step_phase_of_end hstep hend) htreset
        rw [houts] at hk
        exact List.eq_of_mem_replicate (List.mem_of_getElem? hk)
      | succ j => exact outputs_after_end n htreset hj hend (by omega) hk
    | fault _ => simp [outputs, hstep] at hj
    | refused _ => simp [outputs, hstep] at hj

end Sys2Proof.Machine
end

section
/-! PROOF. The synchronizer, rule by rule, and the steps that complete. -/

namespace Sys2Proof.Proofs

open Sys2Proof Sys2Proof.Machine

/-- Settles O11: the invariant excludes the one count at which an instruction stops. -/
theorem everyInstructionCompletes : Obligations.EveryInstructionCompletes :=
  fun i _ hs => hs.exec_completes i

/-- Settles O48, by induction on the number of steps. -/
theorem invariantStatesNeverStop : Obligations.InvariantStatesNeverStop :=
  fun _ hs => hs.safe

/-- Settles O25, by what an instruction can do. -/
theorem phaseChangesOnlyByTheRules : Obligations.PhaseChangesOnlyByTheRules :=
  fun _ _ _ h hne => exec_phase_cases h hne

/-- Settles O13: in ENDED no instruction changes the phase, so a step that leaves it is a reset. -/
theorem endedIgnoresEveryEvent : Obligations.EndedIgnoresEveryEvent := by
  refine ⟨fun s d i hp _ => exec_ended hp i, fun s t hp hstep hleaves => ?_⟩
  obtain ⟨hreset, -⟩ | ⟨i, -, hexec⟩ := step_cases hstep
  · exact fetch_eq_none_iff.1 hreset
  · obtain ⟨d', hstay⟩ := exec_ended (s := consume s) hp i
    rw [hstay, Host.Outcome.next.injEq] at hexec
    exact absurd (hexec ▸ hp) hleaves

/-- Settles O14: in every phase IDLE does no more than emit NONE. -/
theorem idleChangesNothing : Obligations.IdleChangesNothing :=
  fun _ _ _ => ⟨none, rfl⟩

/-- Settles O15: the marker is the one byte that makes a change of phase in SCAN. -/
theorem markerStartsAFrame : Obligations.MarkerStartsAFrame := by
  intro s hp
  refine ⟨⟨_, exec_byte_head hp, rfl, rfl, Memory.read_write_same _ _ _, fun a ha => Memory.read_write_other _ _ ha, rfl, rfl,
    rfl⟩, fun b t hexec hleaves => by_contra fun hb => ?_⟩
  rw [exec_byte_discarded hp hb, Host.Outcome.next.injEq] at hexec
  exact hleaves (hexec ▸ hp)

/-- Settles O16, by the rule for a byte that is not the marker. -/
theorem otherBytesAreDiscardedInScan : Obligations.OtherBytesAreDiscardedInScan :=
  fun _ _ hp hb => ⟨none, exec_byte_discarded hp hb⟩

/-- Settles O17: the stored byte is read back at its own offset, and below 12 the count does not wrap. -/
theorem payloadByteIsStoredAndCounted : Obligations.PayloadByteIsStoredAndCounted :=
  fun _ b hp hc => ⟨_, exec_byte_payload hp hc b, hp, storePayload_cnt_toNat b hc, Memory.read_write_same _ _ _,
    fun _ ha => Memory.read_write_other _ _ ha, rfl, rfl, rfl⟩

/-- Settles O18: the frame that is decoded is the snapshot taken after the last byte is stored. -/
theorem lastByteCompletesDecodesAndReports : Obligations.LastByteCompletesDecodesAndReports := by
  intro s b hp hc
  refine ⟨_, (memWrite 13 b s).snapshot, exec_byte_last hp hc b, rfl, rfl, Memory.read_write_same _ _ _,
    fun a ha => Memory.read_write_other _ _ ha, fun i hi hne => ?before, ?last, fun r hr => ?tag, fun e he => ?err, rfl, rfl⟩
  case before => rw [snapshot_get, fbByte_memWrite, if_neg hne.symm]
  case last => rw [snapshot_get, fbByte_memWrite, if_pos rfl]
  case tag => rw [completeFrame_out, hr]; rfl
  case err => rw [completeFrame_out, he]; rfl

/-- Settles O19, by the rule for SCAN. -/
theorem timeoutInScanIsIgnored : Obligations.TimeoutInScanIsIgnored :=
  fun _ d hp => ⟨none, exec_timeout_scan hp d⟩

/-- Settles O20, by the rule for ASM, which does not read the count. -/
theorem timeoutDiscardsTheFragment : Obligations.TimeoutDiscardsTheFragment :=
  fun _ d hp => ⟨none, exec_timeout_asm hp d⟩

/-- Settles O21: outside ENDED an EOS is one rule. -/
theorem endOfStreamInScan : Obligations.EndOfStreamInScan :=
  fun _ d hp => ⟨none, exec_eos (by simp [hp]) d⟩

/-- Settles O22: outside ENDED an EOS is one rule, which does not read the fragment. -/
theorem endOfStreamDiscardsTheFragment : Obligations.EndOfStreamDiscardsTheFragment :=
  fun _ d hp => ⟨none, exec_eos (by simp [hp]) d⟩

/-- Settles O56, by the run in ENDED. -/
theorem endedIsFinalUntilReset : Obligations.EndedIsFinalUntilReset := by
  intro s n hp hreset
  obtain ⟨houts, hfinal⟩ := run_ended n hp hreset
  exact ⟨observation_eq_nil houts, hfinal⟩

/-- Settles O57, by induction on the number of steps: an END leads to ENDED, from where the run emits nothing. -/
theorem nothingIsEmittedAfterEnd : Obligations.NothingIsEmittedAfterEnd :=
  fun _ n _ _ _ _ hreset hj hend hlt hk => outputs_after_end n hreset hj hend hlt hk

end Sys2Proof.Proofs
end

section
/-! SUPPORT. The runs over a marker and the bytes that follow it, spread over the steps in any way (R102 to R108). -/

namespace Sys2Proof.Machine

variable {s t : State} {bs : List Byte}

/-! ## What a script presents -/

theorem presentedBytes_append (xs ys : List Input) : presentedBytes (xs ++ ys) = presentedBytes xs ++ presentedBytes ys :=
  List.filterMap_append

/-- A script that presents a last byte `b` presents it in one of its inputs, with the bytes before it presented before and no
byte presented after. -/
theorem presentedBytes_eq_append_singleton {xs : List Input} {b : Byte} (h : presentedBytes xs = bs ++ [b]) :
    ∃ ys x zs, xs = ys ++ x :: zs ∧ presentedBytes ys = bs ∧ x.byte? = some b ∧ ∀ z ∈ zs, z.byte? = none := by
  obtain ⟨ys, tail, rfl, hys, htail⟩ := List.filterMap_eq_append_iff.1 h
  obtain ⟨quiet, x, zs, rfl, hquiet, hx, hzs⟩ := List.filterMap_eq_cons_iff.1 htail
  refine ⟨ys ++ quiet, x, zs, by simp, ?_, hx, List.filterMap_eq_nil_iff.1 hzs⟩
  rw [presentedBytes_append, presentedBytes, hys, presentedBytes, List.filterMap_eq_nil_iff.2 hquiet, List.append_nil]

theorem inputInstr_timeoutLine : inputInstr timeoutLine = some (.timeout 0) := by decide

theorem headByte_of_toList {f : RawFrame} {b : Byte} (h : f.toList = b :: bs) : headByte f = b := by
  have hget : f.toList[0]? = some b := by rw [h]; rfl
  rwa [Vector.getElem?_toList, Vector.getElem?_eq_getElem (by omega), Option.some.injEq] at hget

/-! ## The reports -/

/-- A completed frame is always observed (R140). -/
theorem reportPorts_kind_ne_none (f : RawFrame) : (reportPorts f).kind ≠ kindNone := by
  obtain h | h : (reportPorts f).kind = kindTag ∨ (reportPorts f).kind = kindErr := ofResult_kind _
  · rw [h]; decide
  · rw [h]; decide

theorem observation_succ_of_report (hstep : step s = .next t) {f : RawFrame} (hout : t.out = reportPorts f) (n : Nat) :
    observation (n + 1) s = reportPorts f :: observation n t := by
  rw [observation, outputs_succ hstep, hout, List.filter_cons_of_pos (by simpa using reportPorts_kind_ne_none f)]
  rfl

/-! ## The runs -/

/-- R108: a TIMEOUT in ASM goes back to SCAN without a report. -/
theorem step_timeoutLine (hp : s.phase = .asm) (hnext : nextInput s = timeoutLine) :
    ∃ t, step s = .next t ∧ t.phase = .scan ∧ t.cnt = 0#4 ∧ t.out = OutPorts.zero := by
  have hfetch : fetch s = some (.timeout 0) := by rw [fetch, hnext, inputInstr_timeoutLine]
  exact ⟨_, (step_of_fetch hfetch).trans (exec_timeout_asm (s := consume s) hp 0), rfl, rfl, rfl⟩

/-- A frame's 14 bytes, presented from SCAN with other inputs between and after them that abandon nothing: it is reported, and
nothing else is, and the block scans on. -/
theorem run_frame {xs rest : List Input} {f : RawFrame} (hp : s.phase = .scan)
    (hi : s.inputs = byteLine Config.head :: (xs ++ rest)) (ha : ∀ x ∈ xs, x.abandons = false)
    (hf : f.toList = Config.head :: presentedBytes xs) :
    observation (xs.length + 1) s = [reportPorts f] ∧
      ∃ t, stateAfter (xs.length + 1) s = some t ∧ t.phase = .scan ∧ t.cnt = 0#4 ∧ t.inputs = rest := by
  obtain ⟨bs, b, hlen, hbytes⟩ := toList_eq_of_head (headByte_of_toList hf)
  have hpresented : presentedBytes xs = bs ++ [b] := by simpa using hf.symm.trans hbytes
  obtain ⟨ys, x, zs, rfl, rfl, hx, hzs⟩ := presentedBytes_eq_append_singleton hpresented
  -- The inputs before the last byte leave a fragment of twelve bytes; the last byte completes it; what is left holds no byte.
  obtain ⟨u, hrun, hu, hui, houts⟩ := run_fragment (rest := x :: zs ++ rest) (xs := ys) hp (by simpa using hi)
    (fun y hy => ha y (by simp [hy])) hlen.le
  obtain ⟨v, hstep, hvp, hvc, hvout⟩ := hu.complete hlen ((nextInput_of_inputs_cons hui).symm ▸ hx) hbytes
  have hvi : v.inputs = zs ++ rest := by rw [step_inputs hstep, hui]; rfl
  obtain ⟨w, hrest, hwp, hwc, hwi, hwouts⟩ := run_scan_noise hvp hvi fun z hz => ⟨ha z (by simp [hz]), by simp [hzs z hz]⟩
  have hcount : (ys ++ x :: zs).length + 1 = ys.length + 1 + (zs.length + 1) := by simp; omega
  rw [hcount]
  refine ⟨?_, w, ?_, hwp, hwc.trans hvc, hwi⟩
  · rw [observation_add _ hrun, observation_eq_nil houts, observation_succ_of_report hstep hvout, observation_eq_nil hwouts]
    rfl
  · rw [stateAfter_add, hrun, Option.bind_some, stateAfter_succ hstep, hrest]

end Sys2Proof.Machine
end

section
/-! PROOF. Frames in sequence: after a TIMEOUT, after a truncated frame, back to back, and after a frame that failed. -/

namespace Sys2Proof.Proofs

open Sys2Proof Sys2Proof.Machine

/-- Settles O52: the fragment, the TIMEOUT and the noise report nothing, and leave the block scanning for the frame. -/
theorem frameAfterATimeoutIsDecodedAlone : Obligations.FrameAfterATimeoutIsDecodedAlone := by
  intro s frag noise xs f hp hfrag hlen hnoise hxs hf
  obtain ⟨t₁, hrun₁, h₁, hi₁, houts₁⟩ := run_fragment
    (s := s.withInputs (byteLine 0x02#8 :: frag ++ timeoutLine :: noise ++ byteLine 0x02#8 :: xs))
    (rest := timeoutLine :: noise ++ byteLine 0x02#8 :: xs) hp (by simp [Config.head]) hfrag (by omega)
  obtain ⟨t₂, hstep₂, hp₂, -, hout₂⟩ := step_timeoutLine h₁.phase (nextInput_of_inputs_cons hi₁)
  have hi₂ : t₂.inputs = noise ++ byteLine 0x02#8 :: xs := by rw [step_inputs hstep₂, hi₁]; rfl
  obtain ⟨t₃, hrun₃, hp₃, -, hi₃, houts₃⟩ := run_scan_noise hp₂ hi₂ hnoise
  obtain ⟨hframe, -⟩ := run_frame (rest := []) hp₃ (hi₃.trans (by simp [Config.head])) hxs hf
  have hcount : frag.length + noise.length + xs.length + 3 = frag.length + 1 + (1 + (noise.length + (xs.length + 1))) := by omega
  have hrun₂ : stateAfter 1 t₁ = some t₂ := stateAfter_succ hstep₂ 0
  have houts₂ : outputs 1 t₁ = List.replicate 1 OutPorts.zero := by rw [outputs_succ hstep₂, hout₂]; rfl
  rw [hcount, observation_add _ hrun₁, observation_add _ hrun₂, observation_add _ hrun₃, observation_eq_nil houts₁,
    observation_eq_nil houts₂, observation_eq_nil houts₃, hframe]
  rfl

/-- Settles O53: the bytes are those of the mixed frame, followed by noise. -/
theorem truncatedFrameAbsorbsTheNext : Obligations.TruncatedFrameAbsorbsTheNext := by
  intro s frag f g hp hlen hg hnoise
  have hlines : byteLine 0x02#8 :: byteLines frag ++ byteLines f.toList = byteLine Config.head ::
      (byteLines (frag ++ f.toList.take (13 - frag.length)) ++ byteLines (f.toList.drop (13 - frag.length))) := by
    conv_lhs => rw [← List.take_append_drop (13 - frag.length) f.toList]
    simp [byteLines, Config.head]
  obtain ⟨hframe, t, hrun, htp, htc, hti⟩ := run_frame
    (s := s.withInputs (byteLine 0x02#8 :: byteLines frag ++ byteLines f.toList)) hp hlines
    (List.forall_mem_map.2 fun b _ => byteLine_abandons b) (by rw [presentedBytes_byteLines]; exact hg)
  obtain ⟨u, hrest, hup, huc, -, houts⟩ := run_scan_noise (rest := []) htp (hti.trans (List.append_nil _).symm)
    (List.forall_mem_map.2 fun b hb => ⟨byteLine_abandons b, by simpa [Config.head] using hnoise b hb⟩)
  have hcount : 15 + frag.length = (byteLines (frag ++ f.toList.take (13 - frag.length))).length + 1 +
      (byteLines (f.toList.drop (13 - frag.length))).length := by
    simp [byteLines]
    omega
  rw [hcount]
  refine ⟨?_, u, ?_, hup, huc.trans htc⟩
  · rw [observation_add _ hrun, hframe, observation_eq_nil houts, List.append_nil]
  · rw [stateAfter_add, hrun, Option.bind_some, hrest]

/-- Settles O54: each frame's 14 steps report it in the last of them and end in SCAN. -/
theorem backToBackFramesAreEachReported : Obligations.BackToBackFramesAreEachReported := by
  intro s f g hp hf hg
  obtain ⟨houts, t, hrun, htp, -, hti⟩ := run_frameLines (s := s.withInputs (frameLines f ++ frameLines g)) hp hf rfl
  obtain ⟨houts', -⟩ := run_frameLines (rest := []) htp hg (hti.trans (List.append_nil _).symm)
  rw [outputs_add 14 14 hrun, houts, houts']
  simp

/-- Settles O58: two completed frames leave states that differ at most in bytes of the buffer outside an assembly, which no later
output shows. -/
theorem aFrameLeavesNoTraceInLaterOutputs : Obligations.AFrameLeavesNoTraceInLaterOutputs := by
  intro s t s' t' b c hsp htp hsc htc hinputs hs ht
  obtain rfl : completeFrame b s = s' := Host.Outcome.next.inj ((exec_byte_last hsp hsc b).symm.trans hs)
  obtain rfl : completeFrame c t = t' := Host.Outcome.next.inj ((exec_byte_last htp htc c).symm.trans ht)
  have hagree : (completeFrame b s).agree (completeFrame c t) :=
    .of_phase_ne_asm (by simp) (by simp) (by simp) (by simpa using hinputs)
  exact ⟨rfl, rfl, fun n => outputs_eq_of_agree n hagree⟩

end Sys2Proof.Proofs
end

section
/-! SUPPORT. A run seen from the step that accepted a marker: what has been presented since is what has been assembled (R114). -/

namespace Sys2Proof.Machine

variable {s t : State} {u n : Nat}

/-! ## The last step of a run, and what was presented up to it -/

theorem stateAfter_succ_eq_some :
    stateAfter (n + 1) s = some t ↔ ∃ v, stateAfter n s = some v ∧ step v = .next t := by
  rw [stateAfter_add, Option.bind_eq_some_iff]
  refine exists_congr fun v => and_congr_right fun _ => ?_
  cases h : step v <;> simp [stateAfter, h]

theorem inputsAfter_self (s : State) (u : Nat) : s.inputsAfter u u = [] := by
  simp [State.inputsAfter]

theorem inputsAfter_succ (s : State) (h : u ≤ n) : s.inputsAfter u (n + 1) = s.inputsAfter u n ++ [s.inputAt (n + 1)] := by
  rw [State.inputsAfter, Nat.succ_sub h, List.range_succ, List.map_append, List.map_singleton, State.inputsAfter,
    show u + 1 + (n - u) = n + 1 by omega]

theorem forall_inputsAfter_succ {P : Input → Prop} (h : u ≤ n) :
    (∀ x ∈ s.inputsAfter u (n + 1), P x) ↔ (∀ x ∈ s.inputsAfter u n, P x) ∧ P (s.inputAt (n + 1)) := by
  rw [inputsAfter_succ s h, List.forall_mem_append, List.forall_mem_singleton]

theorem presentedBytes_inputsAfter_succ (s : State) (h : u ≤ n) :
    presentedBytes (s.inputsAfter u (n + 1)) = presentedBytes (s.inputsAfter u n) ++ (s.inputAt (n + 1)).byte?.toList := by
  rw [inputsAfter_succ s h, presentedBytes_append, presentedBytes_cons]
  simp [presentedBytes]

theorem abandons_of_byte? {x : Input} {b : Byte} (h : x.byte? = some b) : x.abandons = false := by
  unfold Input.byte? at h
  unfold Input.abandons
  cases hi : inputInstr x with
  | none => simp [hi] at h
  | some i =>
    cases i with
    | byte _ => rfl
    | _ => simp [hi] at h

/-- The marker and 13 bytes are a frame (R7). -/
theorem exists_frame_of_length {bs : List Byte} (h : bs.length = 13) : ∃ f : RawFrame, f.toList = Config.head :: bs :=
  ⟨⟨(Config.head :: bs).toArray, by simp [h]⟩, rfl⟩

/-! ## Steps into ASM, and steps that report -/

/-- A step that leads to ASM accepts the marker, or extends a fragment by what it presents. -/
theorem step_asm_cases (h : step s = .next t) (hp : t.phase = .asm) :
    (s.phase = .scan ∧ (nextInput s).byte? = some Config.head ∧ t.cnt = 0) ∨
    (s.phase = .asm ∧ (nextInput s).abandons = false ∧ t.cnt.toNat = s.cnt.toNat + (nextInput s).byte?.toList.length) := by
  obtain ⟨-, rfl⟩ | ⟨i, hfetch, hexec⟩ := step_cases h
  · simp at hp
  rw [fetch] at hfetch
  simp only [Input.byte?, Input.abandons, hfetch]
  obtain ⟨rfl, hquiet⟩ | ⟨rfl, hs, rfl⟩ | ⟨b, rfl, hs, hc, rfl⟩ | ⟨_, -, -, -, rfl⟩ | ⟨_, -, -, rfl⟩ | ⟨_, -, -, rfl⟩ |
    ⟨_, _, rfl, rfl⟩ := exec_cases hexec
  · obtain ⟨d, rfl⟩ | ⟨hs, -⟩ | ⟨hs, -⟩ := hquiet
    · exact .inr ⟨hp, rfl, rfl⟩
    · exact absurd (hs.symm.trans hp) (by simp)
    · exact absurd (hs.symm.trans hp) (by simp)
  · exact .inl ⟨hs, rfl, rfl⟩
  · exact .inr ⟨hs, rfl, storePayload_cnt_toNat b hc⟩
  · simp at hp
  · simp at hp
  · simp at hp
  · exact .inr ⟨hp, rfl, rfl⟩

/-- A TAG or an ERR is emitted exactly by the byte that follows a fragment of twelve (R106). -/
theorem step_reports_iff (h : step s = .next t) :
    (t.out.kind = kindTag ∨ t.out.kind = kindErr) ↔
      (nextInput s).byte?.isSome ∧ s.phase = .asm ∧ s.cnt.toNat = 12 := by
  obtain ⟨hfetch, rfl⟩ | ⟨i, hfetch, hexec⟩ := step_cases h
  · rw [fetch] at hfetch
    exact iff_of_false (by rw [takeReset_out]; decide) (by simp [Input.byte?, hfetch])
  · have hbyte : (nextInput s).byte?.isSome ↔ ∃ b, i = .byte b := by
      rw [fetch] at hfetch
      cases i <;> simp [Input.byte?, hfetch]
    obtain ⟨hreports, -, -⟩ := Proofs.outputsAreEmittedInTheirOwnStep i _ _ hexec
    rw [hbyte]
    exact hreports

/-! ## Since the marker -/

/-- Step `u` of the run from `s` accepts a marker (R103). -/
def State.AcceptsMarkerAt (s : State) (u : Nat) : Prop :=
  ∃ su, stateAfter u s = some su ∧ su.phase = .scan ∧ (s.inputAt u).byte? = some Config.head

/-- As long as nothing abandons the assembly and the frame is incomplete, the fragment is what was presented since the marker. -/
theorem State.AcceptsMarkerAt.assembled (h : s.AcceptsMarkerAt u) (hle : u ≤ n)
    (ha : ∀ x ∈ s.inputsAfter u n, x.abandons = false) (hlen : (presentedBytes (s.inputsAfter u n)).length ≤ 12)
    (hrun : stateAfter (n + 1) s = some t) : t.Assembled (presentedBytes (s.inputsAfter u n)) := by
  induction n, hle using Nat.le_induction generalizing t with
  | base =>
    obtain ⟨su, hsu, hp, hhead⟩ := h
    obtain ⟨_, hv, hstep⟩ := stateAfter_succ_eq_some.1 hrun
    obtain rfl := Option.some.inj (hsu.symm.trans hv)
    obtain ⟨t', hstep', ht', -⟩ := step_marker hp (by rwa [nextInput_stateAfter hsu])
    obtain rfl := Host.Outcome.next.inj (hstep'.symm.trans hstep)
    rw [inputsAfter_self]
    exact ht'
  | succ n hle ih =>
    obtain ⟨v, hv, hstep⟩ := stateAfter_succ_eq_some.1 hrun
    obtain ⟨hbefore, hlast⟩ := (forall_inputsAfter_succ hle).1 ha
    rw [presentedBytes_inputsAfter_succ s hle, List.length_append] at hlen
    rw [presentedBytes_inputsAfter_succ s hle]
    rw [← nextInput_stateAfter hv] at hlast hlen ⊢
    obtain ⟨t', hstep', ht', -⟩ := (ih hbefore (by omega) hv).step hlast hlen
    obtain rfl := Host.Outcome.next.inj (hstep'.symm.trans hstep)
    exact ht'

/-- A run that began outside ASM and is in ASM has accepted a marker, nothing since has abandoned the assembly, and the count is
the number of bytes presented since. -/
theorem acceptsMarkerAt_of_asm (hs : s.phase ≠ .asm) (hrun : stateAfter n s = some t) (hp : t.phase = .asm) :
    ∃ u m, n = m + 1 ∧ u ≤ m ∧ s.AcceptsMarkerAt u ∧ (∀ x ∈ s.inputsAfter u m, x.abandons = false) ∧
      t.cnt.toNat = (presentedBytes (s.inputsAfter u m)).length := by
  induction n generalizing t with
  | zero =>
    obtain rfl : s = t := Option.some.inj hrun
    exact absurd hp hs
  | succ n ih =>
    obtain ⟨v, hv, hstep⟩ := stateAfter_succ_eq_some.1 hrun
    have hnext := nextInput_stateAfter hv
    obtain ⟨hvp, hhead, hcnt⟩ | ⟨hvp, ha, hcnt⟩ := step_asm_cases hstep hp
    · refine ⟨n, n, rfl, le_rfl, ⟨v, hv, hvp, hnext ▸ hhead⟩, ?_⟩
      rw [inputsAfter_self, hcnt]
      exact ⟨by simp, rfl⟩
    · obtain ⟨u, m, rfl, hle, hu, hbefore, hcount⟩ := ih hv hvp
      refine ⟨u, m + 1, rfl, by omega, hu, (forall_inputsAfter_succ hle).2 ⟨hbefore, hnext ▸ ha⟩, ?_⟩
      rw [presentedBytes_inputsAfter_succ s hle, List.length_append, hcnt, hcount, hnext]

/-- In the step that presents the last of 13 bytes since the marker, the fragment is the twelve before it. -/
theorem State.AcceptsMarkerAt.assembled_before_last (h : s.AcceptsMarkerAt u) (hlt : u < n)
    (ha : ∀ x ∈ s.inputsAfter u n, x.abandons = false) (hlen : (presentedBytes (s.inputsAfter u n)).length = 13) {b : Byte}
    (hb : (s.inputAt n).byte? = some b) (hrun : stateAfter n s = some t) :
    ∃ bs : List Byte, bs.length = 12 ∧ presentedBytes (s.inputsAfter u n) = bs ++ [b] ∧ t.Assembled bs := by
  obtain ⟨m, rfl⟩ := Nat.exists_eq_add_of_lt hlt
  have hle : u ≤ u + m := Nat.le_add_right u m
  have hbytes : presentedBytes (s.inputsAfter u (u + m + 1)) = presentedBytes (s.inputsAfter u (u + m)) ++ [b] := by
    rw [presentedBytes_inputsAfter_succ s hle, hb]
    rfl
  have htwelve : (presentedBytes (s.inputsAfter u (u + m))).length = 12 := by
    rw [hbytes, List.length_append] at hlen
    exact Nat.succ.inj hlen
  obtain ⟨hbefore, -⟩ := (forall_inputsAfter_succ hle).1 ha
  exact ⟨_, htwelve, hbytes, h.assembled hle hbefore htwelve.le hrun⟩

end Sys2Proof.Machine
end

section
/-! PROOF. A frame is reported exactly when 13 bytes have followed an accepted marker. -/

namespace Sys2Proof.Proofs

open Sys2Proof Sys2Proof.Machine

/-- Settles O51: a report needs ASM and a count of 12, which only a marker and twelve bytes since lead to, and always do. -/
theorem framesCompleteExactlyAfterThirteenBytes : Obligations.FramesCompleteExactlyAfterThirteenBytes := by
  intro s t st st' hs hrun hstep
  have hnext := nextInput_stateAfter hrun
  refine ⟨(step_reports_iff hstep).trans ⟨?marker, ?report⟩, ?frame⟩
  case marker =>
    rintro ⟨hbyte, hp, hcnt⟩
    obtain ⟨u, m, rfl, hle, ⟨su, hsu, hsup, hhead⟩, hbefore, hcount⟩ := acceptsMarkerAt_of_asm hs hrun hp
    rw [hnext] at hbyte
    obtain ⟨b, hb⟩ := Option.isSome_iff_exists.1 hbyte
    have ha : (s.inputAt (m + 1)).abandons = false := abandons_of_byte? hb
    refine ⟨u, su, by omega, hsu, hsup, hhead, (forall_inputsAfter_succ hle).2 ⟨hbefore, ha⟩, ?_, hbyte⟩
    rw [presentedBytes_inputsAfter_succ s hle, List.length_append, ← hcount, hcnt, hb]
    rfl
  case report =>
    rintro ⟨u, su, hlt, hsu, hsup, hhead, ha, hlen, hbyte⟩
    obtain ⟨b, hb⟩ := Option.isSome_iff_exists.1 hbyte
    obtain ⟨bs, htwelve, -, hst⟩ := State.AcceptsMarkerAt.assembled_before_last ⟨su, hsu, hsup, hhead⟩ hlt ha hlen hb hrun
    exact ⟨hnext ▸ hbyte, hst.phase, hst.cnt.trans htwelve⟩
  case frame =>
    intro u su hlt hsu hsup hhead ha hlen hbyte
    obtain ⟨b, hb⟩ := Option.isSome_iff_exists.1 hbyte
    obtain ⟨bs, htwelve, hbytes, hst⟩ :=
      State.AcceptsMarkerAt.assembled_before_last ⟨su, hsu, hsup, hhead⟩ hlt ha hlen hb hrun
    obtain ⟨f, hf⟩ := exists_frame_of_length hlen
    obtain ⟨t', hstep', -, -, hout⟩ := hst.complete htwelve (hnext ▸ hb) (hf.trans (congrArg _ hbytes))
    obtain rfl := Host.Outcome.next.inj (hstep'.symm.trans hstep)
    exact ⟨f, hf, hout⟩

end Sys2Proof.Proofs
end

section
/-! SUPPORT. The checks of the pipeline one by one, each with its error, and what a decode that fails or succeeds says (R130 to
R137). -/

namespace Sys2Proof.Machine

variable {len : Byte} {f : RawFrame}

/-! ## The check that fails -/

/-- R131: a wrong length is the result, whatever the buffer holds. -/
theorem decodeFrame_of_wrong_length (h : len ≠ 14#8) (f : RawFrame) : decodeFrame len f = .error (.invalidLength len) := by
  rw [decodeFrame_eq, if_pos h]

/-- R132: a wrong marker is the result, whatever the fields hold. -/
theorem decodeFrame_of_wrong_marker (h : headByte f ≠ Config.head ∨ tailByte f ≠ Config.tail) :
    decodeFrame 14#8 f = .error (.invalidMarker (headByte f) (tailByte f)) := by
  rw [decodeFrame_eq, if_neg (by simp), if_pos h]

section
variable (hhead : headByte f = Config.head) (htail : tailByte f = Config.tail)
include hhead htail

/-- R152: the version field, the first that is read. -/
theorem decodeFrame_of_bad_version (h : hex2 f[1] f[2] = none) :
    decodeFrame 14#8 f = .error (.invalidHex .version [f[1], f[2]]) := by
  simp [decodeFrame_eq, hhead, htail, h]

variable {version sent : Byte} (hversion : hex2 f[1] f[2] = some version)
include hversion

/-- R154: the checksum field, read after the version. -/
theorem decodeFrame_of_bad_checksum_field (h : hex2 f[11] f[12] = none) :
    decodeFrame 14#8 f = .error (.invalidHex .checksum [f[11], f[12]]) := by
  simp [decodeFrame_eq, hhead, htail, hversion, h]

variable (hsent : hex2 f[11] f[12] = some sent)
include hsent

/-- R171: the tag, read after the checksum field. -/
theorem decodeFrame_of_bad_tag (h : checksumTokens f = none) :
    decodeFrame 14#8 f = .error (.invalidHex .tag (rawTag f).toList) := by
  simp [decodeFrame_eq, hhead, htail, hversion, hsent, h]

/-- R173: the comparison, once every field has been read. -/
theorem decodeFrame_of_wrong_checksum {t : Vector Byte 5} (ht : checksumTokens f = some t) (h : computedChecksum t ≠ sent) :
    decodeFrame 14#8 f = .error (.checksum (computedChecksum t) sent) := by
  simp [decodeFrame_eq, hhead, htail, hversion, hsent, ht, h]

end

/-- The tokens cover the tag: one byte of it that is no digit leaves the frame without tokens (R171). -/
theorem checksumTokens_eq_none_of_tag {k : Nat} (hk : k < 14) (hlo : 3 ≤ k) (hhi : k ≤ 10) (h : hexval f[k] = none) :
    checksumTokens f = none := by
  simp only [checksumTokens_eq_none, hex2_eq_none]
  interval_cases k <;> simp [h]

theorem computedChecksum_eq (t0 t1 t2 t3 t4 : Byte) :
    computedChecksum #v[t0, t1, t2, t3, t4] = t0 ^^^ t1 ^^^ t2 ^^^ t3 ^^^ t4 :=
  rfl

/-! ## A decode that fails -/

/-- What a buffer of length 14 can fail with: a marker, a field or the checksum (R132, R157, R173). -/
theorem decodeFrame_error_cases {e : DecodeError} (h : decodeFrame 14#8 f = .error e) :
    ((headByte f ≠ Config.head ∨ tailByte f ≠ Config.tail) ∧ e = .invalidMarker (headByte f) (tailByte f)) ∨
    (∃ field value, e = .invalidHex field value) ∨ ∃ computed sent, e = .checksum computed sent := by
  by_cases hm : headByte f ≠ Config.head ∨ tailByte f ≠ Config.tail
  · rw [decodeFrame_of_wrong_marker hm] at h
    exact .inl ⟨hm, (Except.error.inj h).symm⟩
  · rw [decodeFrame_eq, if_neg (by simp), if_neg hm] at h
    right
    -- the fields in their order: version, checksum, tag
    iterate 3
      split at h
      · exact .inl ⟨_, _, (Except.error.inj h).symm⟩
    split at h
    · exact .inr ⟨_, _, (Except.error.inj h).symm⟩
    · split at h
      · exact .inl ⟨_, _, (Except.error.inj h).symm⟩
      · cases h

/-! ## The record -/

theorem getElem_rawTag (f : RawFrame) (k : Nat) (h : k < 8) : (rawTag f)[k] = f[3 + k] := by
  interval_cases k <;> rfl

/-- A tag that has a value has eight digits (R156). -/
theorem hexval_isSome_of_hex8 {s : Vector Byte 8} {n : BitVec 32} (h : hex8 s = some n) (k : Nat) (hk : k < 8) :
    (hexval s[k]).isSome := by
  by_contra hnone
  have : hex8 s = none := hex8_eq_none.2 ⟨s[k], by simp, by simpa using hnone⟩
  simp [this] at h

/-- The bytes of a rendering are decimal digits (R73, R191). -/
theorem dec10_digit (v : BitVec 32) (k : Nat) (h : k < 10) :
    0x30 ≤ ((dec10 v)[k]).toNat ∧ ((dec10 v)[k]).toNat ≤ 0x39 := by
  have hlt : decimalDigit v.toNat k < 10 := Nat.mod_lt _ (by decide)
  have hdigit : ((dec10 v)[k]).toNat = 0x30 + decimalDigit v.toNat k := by
    rw [dec10, Vector.getElem_ofFn, BitVec.toNat_ofNat]
    exact Nat.mod_eq_of_lt (by simp only; omega)
  omega

end Sys2Proof.Machine
end

section
/-! SUPPORT. What a BYTE and a DECODE report of the frame they decode (R106, R113, R138). -/

namespace Sys2Proof.Machine

variable {s t : State} {b : Byte} {f : RawFrame}

/-- R138: the result of the request alone, on the unit's ports. -/
theorem exec_decode (len : Byte) (f : RawFrame) (s : State) :
    exec (.decode len f) s = .next (emitUnit (Output.ofResult (decodeFrame len f)) s) :=
  rfl

/-- A BYTE reports nothing, or it completes a frame and reports what that frame decodes to. -/
theorem exec_byte_out_cases (h : exec (.byte b) s = .next t) :
    t.out = OutPorts.zero ∨ (s.phase = .asm ∧ t.out = reportPorts (memWrite 13 b s).snapshot) := by
  obtain ⟨rfl, -⟩ | ⟨-, -, rfl⟩ | ⟨_, -, -, -, rfl⟩ | ⟨_, hi, hp, -, rfl⟩ | ⟨_, hi, -⟩ | ⟨_, hi, -⟩ | ⟨_, _, hi, -⟩ := exec_cases h
  · exact .inl rfl
  · exact .inl rfl
  · exact .inl rfl
  · cases hi
    exact .inr ⟨hp, rfl⟩
  all_goals cases hi

/-- R113: the marker stands at offset 0 of the frame that is decoded. -/
theorem State.Inv.headByte_snapshot (hs : s.Inv) (hp : s.phase = .asm) (b : Byte) :
    headByte (memWrite 13 b s).snapshot = Config.head := by
  obtain ⟨-, hasm, -⟩ := hs
  obtain ⟨hhead, -, -⟩ := hasm hp
  rw [headByte, snapshot_get, fbByte_memWrite, if_neg (by decide), State.fbByte_of_read hhead]

theorem tailByte_snapshot (s : State) (b : Byte) : tailByte (memWrite 13 b s).snapshot = b := by
  rw [tailByte, snapshot_get, fbByte_memWrite, if_pos rfl]

theorem errPorts_err (e : DecodeError) : (errPorts e).err = e.code := by
  cases e <;> rfl

/-- A report of kind ERR is that of an error with which the frame fails (R140). -/
theorem exists_error_of_reportPorts (h : (reportPorts f).kind = kindErr) :
    ∃ e, decodeFrame 14#8 f = .error e ∧ reportPorts f = errPorts e := by
  cases hd : decodeFrame 14#8 f with
  | error e => exact ⟨e, rfl, by rw [reportPorts, hd]; rfl⟩
  | ok r =>
    rw [reportPorts, hd] at h
    exact absurd h (by decide : kindTag ≠ kindErr)

/-- R211: with the head right, a reported error is no InvalidLength, and an InvalidMarker is due to the tail. -/
theorem reportPorts_err_of_head (hhead : headByte f = Config.head) (h : (reportPorts f).kind = kindErr) :
    (reportPorts f).err ≠ 0#2 ∧ ((reportPorts f).err = 1#2 →
      (reportPorts f).a = Config.head ∧ (reportPorts f).b = tailByte f ∧ tailByte f ≠ Config.tail) := by
  obtain ⟨e, he, hports⟩ := exists_error_of_reportPorts h
  rw [hports, errPorts_err]
  obtain ⟨hm, rfl⟩ | ⟨field, value, rfl⟩ | ⟨computed, sent, rfl⟩ := decodeFrame_error_cases he
  case inl =>
    have htail : tailByte f ≠ Config.tail := hm.resolve_left (not_not.2 hhead)
    exact ⟨by simp [DecodeError.code], fun _ => ⟨hhead, rfl, htail⟩⟩
  case inr.inl => simp [DecodeError.code]
  case inr.inr => simp [DecodeError.code]

end Sys2Proof.Machine
end

section
/-! PROOF. The frame decoder: the order of its checks, its record, and what the block and the unit report of it. -/

namespace Sys2Proof.Proofs

open Sys2Proof Sys2Proof.Machine

/-- Settles O41: every check of the built frame holds, the checksum's because the two digits are read as the tokens' XOR. -/
theorem anyValidTagAndVersionRoundTrip : Obligations.AnyValidTagAndVersionRoundTrip := by
  intro v t hi lo p0 p1 p2 p3 p4 h0 h1 h2 h3 h4 hsent
  have htokens : checksumTokens (frameWith v t hi lo) = some #v[p0, p1, p2, p3, p4] :=
    checksumTokens_eq_some.2 ⟨p0, p1, p2, p3, p4, h0, h1, h2, h3, h4, rfl⟩
  obtain ⟨r, hdecode, hraw, hversion, -⟩ := decodeFrame_eq_ok (f := frameWith v t hi lo) rfl rfl htokens hsent
  exact ⟨r, hdecode, hraw.trans (rawTag_frameWith v t hi lo), Option.some.inj (hversion.symm.trans h0)⟩

/-- Settles O28: what a completing BYTE reports is the decode of a snapshot that has the marker at offset 0 and the byte at 13. -/
theorem topLevelReportsNoWrongLengthOrHead : Obligations.TopLevelReportsNoWrongLengthOrHead := by
  intro s t b hs h
  obtain hout | ⟨hp, hout⟩ := exec_byte_out_cases h
  case inl =>
    rw [hout]
    exact ⟨fun hk => absurd hk (by decide), fun hk => absurd hk (by decide)⟩
  case inr =>
    have hhead := hs.headByte_snapshot hp b
    refine ⟨fun _ => ⟨_, hhead, hout⟩, fun hk => ?_⟩
    rw [hout] at hk ⊢
    have herr := reportPorts_err_of_head hhead hk
    rwa [tailByte_snapshot] at herr

/-- Settles O31: the marker check comes before the fields', and no later check fails with its error. -/
theorem markersAreCheckedSecond : Obligations.MarkersAreCheckedSecond := by
  refine fun f => ⟨decodeFrame_of_wrong_marker, fun h t herr => ?_⟩
  obtain ⟨hm, he⟩ | ⟨_, _, he⟩ | ⟨_, _, he⟩ := decodeFrame_error_cases herr
  · cases he
    exact ⟨hm, rfl, rfl⟩
  all_goals cases he

/-- Settles O32, check by check. -/
theorem firstFailingCheckIsReported : Obligations.FirstFailingCheckIsReported := by
  refine fun len f => ⟨fun hl => decodeFrame_of_wrong_length hl f, ?_⟩
  rintro rfl
  refine ⟨decodeFrame_of_wrong_marker, fun hhead htail => ⟨fun h => ?version, fun v hv => ⟨fun h => ?checksum, fun c hc => ⟨?tag,
    fun t1 t2 t3 t4 h1 h2 h3 h4 => ?tokens⟩⟩⟩⟩
  case version => exact decodeFrame_of_bad_version hhead htail (hex2_eq_none.2 h)
  case checksum => exact decodeFrame_of_bad_checksum_field hhead htail hv (hex2_eq_none.2 h)
  case tag =>
    rintro ⟨k, hk, hlo, hhi, h⟩
    exact decodeFrame_of_bad_tag hhead htail hv hc (checksumTokens_eq_none_of_tag hk hlo hhi h)
  case tokens =>
    have htokens : checksumTokens f = some #v[v, t1, t2, t3, t4] :=
      checksumTokens_eq_some.2 ⟨v, t1, t2, t3, t4, hv, h1, h2, h3, h4, rfl⟩
    rw [← computedChecksum_eq]
    refine ⟨decodeFrame_of_wrong_checksum hhead htail hv hc htokens, ?_⟩
    rintro rfl
    obtain ⟨⟨v', raw, fmt⟩, hdecode, rfl, hv', n, hn, rfl⟩ := decodeFrame_eq_ok hhead htail htokens hc
    obtain rfl : v = v' := Option.some.inj (hv.symm.trans hv')
    exact ⟨n, hn, hdecode⟩

/-- Settles O38: the tag of a frame that decodes has a value, so its bytes are digits, and the value is what is rendered. -/
theorem recordHoldsTheFieldsAndTenDigits : Obligations.RecordHoldsTheFieldsAndTenDigits := by
  intro len f r h
  obtain ⟨-, -, -, version, _, _, _, _, n, hversion, -, -, -, -, -, hn, rfl⟩ := decodeFrame_ok h
  exact ⟨hversion, fun k hk => ⟨getElem_rawTag f k hk, hexval_isSome_of_hex8 hn k hk⟩, dec10_digit n, n, hn, rfl⟩

/-- Settles O42: the bytes put in are the head and the tail that the marker check reads. -/
theorem wrongMarkersAreReportedAsPut : Obligations.WrongMarkersAreReportedAsPut := by
  intro f r h t _ hwrong
  have hhead : headByte ((f.set 0 h).set 13 t) = h := by simp [headByte]
  have htail : tailByte ((f.set 0 h).set 13 t) = t := by simp [tailByte]
  have herr := decodeFrame_of_wrong_marker (f := (f.set 0 h).set 13 t) (by rwa [hhead, htail])
  rwa [hhead, htail] at herr

/-- Settles O23: DECODE is one update of the ports, and every other instruction leaves the unit's ports without a value. -/
theorem decodeReportsOnTheUnitPorts : Obligations.DecodeReportsOnTheUnitPorts := by
  refine ⟨fun len f s => ⟨fun r hr => ?record, fun e he => ?error⟩, fun i s t hi h => ?other⟩
  case record => rw [exec_decode, hr]; rfl
  case error => rw [exec_decode, he]; rfl
  case other =>
    obtain ⟨rfl, -⟩ | ⟨-, -, rfl⟩ | ⟨_, -, -, -, rfl⟩ | ⟨_, -, -, -, rfl⟩ | ⟨_, -, -, rfl⟩ | ⟨_, -, -, rfl⟩ |
      ⟨len, f, hdecode, -⟩ := exec_cases h
    case inr.inr.inr.inr.inr.inr => exact absurd hdecode (hi len f)
    all_goals rfl

/-- Settles O30: the length check comes first, and a buffer that passes it fails with another error or not at all. -/
theorem lengthIsCheckedFirst : Obligations.LengthIsCheckedFirst := by
  refine fun len f => ⟨fun hl => decodeFrame_of_wrong_length hl f, fun n herr => ?_⟩
  obtain ⟨-, he⟩ | ⟨_, _, he⟩ | ⟨_, _, he⟩ := decodeFrame_error_cases herr <;> cases he

end Sys2Proof.Proofs
end

section
/-! SUPPORT. The hex fields: each digit by its range, the number that a string of digits stands for, and what one changed byte of
a frame does to its decode (R150, R156, R170, R174). -/

namespace Sys2Proof.Machine

/-! ## One digit -/

/-- The three ranges of R150: the decimal digits, and the letters of either case. -/
theorem hexval_eq_some {b : Byte} {v : Nat} :
    hexval b = some v ↔ (v < 10 ∧ b.toNat = 0x30 + v) ∨ (10 ≤ v ∧ v < 16 ∧ (b.toNat = 0x37 + v ∨ b.toNat = 0x57 + v)) := by
  unfold hexval
  split_ifs <;> simp <;> omega

/-! ## A string of digits -/

theorem hexDigits_eq_some : ∀ {bs : List Byte} {ds : List Nat}, hexDigits bs = some ds ↔ bs.map hexval = ds.map some
  | [], [] => by simp [hexDigits]
  | [], d :: ds => by simp [hexDigits]
  | b :: bs, [] => by simp [hexDigits, Option.bind_eq_some_iff]
  | b :: bs, d :: ds => by
    have ih := @hexDigits_eq_some bs ds
    simp [hexDigits, Option.bind_eq_some_iff, ih]

theorem hexDigits_toList {n : Nat} {s : Vector Byte n} {d : Fin n → Nat} (h : ∀ k : Fin n, hexval s[k.val] = some (d k)) :
    hexDigits s.toList = some (List.ofFn d) :=
  hexDigits_eq_some.2 (List.ext_getElem (by simp) fun k hk _ => by simpa using h ⟨k, by simpa using hk⟩)

/-- The weights of the digits, the first digit's the highest (R46). -/
theorem hexNumber_ofFn : ∀ {n : Nat} (d : Fin n → Nat), hexNumber (List.ofFn d) = ∑ k : Fin n, d k * 16 ^ (n - 1 - k.val)
  | 0, _ => rfl
  | n + 1, d => by
    rw [List.ofFn_succ, hexNumber, List.length_ofFn, hexNumber_ofFn, Fin.sum_univ_succ]
    congr 1
    refine Finset.sum_congr rfl fun k _ => ?_
    rw [Fin.val_succ, show n + 1 - 1 - (k.val + 1) = n - 1 - k.val by omega]

/-- R193: the tag's value depends on the values of its digits only. -/
theorem hex8_rawTag_congr {f g : RawFrame} (h : ∀ k (hk : k < 14), 3 ≤ k → k ≤ 10 → hexval f[k] = hexval g[k]) :
    hex8 (rawTag f) = hex8 (rawTag g) := by
  refine hex8_congr (List.ext_getElem (by simp) fun k hk _ => ?_)
  have hk' : k < 8 := by simpa using hk
  simpa [getElem_rawTag _ k hk'] using h (3 + k) (by omega) (by omega) (by omega)

/-! ## The tokens -/

/-- R170: token i is the pair at offsets 2i + 1 and 2i + 2. -/
theorem checksumTokens_eq_some_iff_pairs {f : RawFrame} {t : Vector Byte 5} :
    checksumTokens f = some t ↔ ∀ i (h : i < 5), hex2 f[2 * i + 1] f[2 * i + 2] = some t[i] := by
  rw [checksumTokens_eq_some]
  constructor
  case mp =>
    rintro ⟨t0, t1, t2, t3, t4, h0, h1, h2, h3, h4, rfl⟩ i h
    interval_cases i <;> assumption
  case mpr =>
    intro h
    refine ⟨t[0], t[1], t[2], t[3], t[4], h 0 (by decide), h 1 (by decide), h 2 (by decide), h 3 (by decide), h 4 (by decide),
      Vector.ext fun i hi => ?_⟩
    interval_cases i <;> rfl

/-- XOR is invertible: another token in one place gives another checksum (R174). -/
theorem computedChecksum_set_ne (t : Vector Byte 5) {i : Nat} (h : i < 5) {v : Byte} (hv : v ≠ t[i]) :
    computedChecksum (t.set i v) ≠ computedChecksum t := by
  interval_cases i <;> simpa [computedChecksum] using hv

/-- A pair of digits that differs in a digit's value from another pair has another value (R151). -/
theorem hex2_of_other_digit {hi lo hi' lo' v : Byte} {x y : Nat} (h : hex2 hi lo = some v) (hx : hexval hi' = some x)
    (hy : hexval lo' = some y) (hne : hexval hi' ≠ hexval hi ∨ hexval lo' ≠ hexval lo) :
    ∃ v', hex2 hi' lo' = some v' ∧ v' ≠ v := by
  refine ⟨_, hex2_eq_some.2 ⟨x, y, hx, hy, rfl⟩, fun hv => ?_⟩
  obtain ⟨hhi, hlo⟩ := hex2_inj (hex2_eq_some.2 ⟨x, y, hx, hy, hv⟩) h
  exact hne.elim (absurd hhi) (absurd hlo)

/-- R174: a digit of another value in the tokens' region changes one token, and with it the checksum. -/
theorem checksumTokens_set_of_other_digit {f : RawFrame} {t : Vector Byte 5} (ht : checksumTokens f = some t) {k : Nat}
    (hk : k < 14) (hlo : 1 ≤ k) (hhi : k ≤ 10) {b : Byte} {d : Nat} (hd : hexval b = some d) (hne : hexval f[k] ≠ some d) :
    ∃ t', checksumTokens (f.set k b) = some t' ∧ computedChecksum t' ≠ computedChecksum t := by
  rw [checksumTokens_eq_some_iff_pairs] at ht
  obtain ⟨i, hi, hki⟩ : ∃ i, i < 5 ∧ (k = 2 * i + 1 ∨ k = 2 * i + 2) := ⟨(k - 1) / 2, by omega, by omega⟩
  obtain ⟨v, hv, hvne⟩ : ∃ v, hex2 (f.set k b)[2 * i + 1] (f.set k b)[2 * i + 2] = some v ∧ v ≠ t[i] := by
    obtain ⟨x, y, hx, hy, -⟩ := hex2_eq_some.1 (ht i hi)
    obtain rfl | rfl := hki
    · exact hex2_of_other_digit (ht i hi) (by simpa using hd) (by simpa using hy) (.inl (by simpa [hd] using hne.symm))
    · exact hex2_of_other_digit (ht i hi) (by simpa using hx) (by simpa using hd) (.inr (by simpa [hd] using hne.symm))
  refine ⟨t.set i v, checksumTokens_eq_some_iff_pairs.2 fun j hj => ?_, computedChecksum_set_ne t hi hvne⟩
  by_cases hij : i = j
  · subst hij
    simpa using hv
  · rw [Vector.getElem_set_ne _ _ (by omega), Vector.getElem_set_ne _ _ (by omega), Vector.getElem_set_ne _ _ hij]
    exact ht j hj

/-! ## A frame like one that decodes -/

/-- The markers and the digits' values of a frame decide its record, but for the raw tag (R193). -/
theorem decodeFrame_ok_congr {f g : RawFrame} {r : TagRecord} (hf : decodeFrame 14#8 f = .ok r)
    (hhead : headByte g = headByte f) (htail : tailByte g = tailByte f) (h : ∀ k (hk : k < 14), hexval g[k] = hexval f[k]) :
    decodeFrame 14#8 g = .ok { r with rawTag := rawTag g } := by
  obtain ⟨-, hhead', htail', t0, t1, t2, t3, t4, n, h0, h1, h2, h3, h4, hsent, hn, rfl⟩ := decodeFrame_ok hf
  have hpair (i j : Nat) (hi : i < 14) (hj : j < 14) : hex2 g[i] g[j] = hex2 f[i] f[j] := hex2_congr (h i hi) (h j hj)
  have htokens : checksumTokens g = some #v[t0, t1, t2, t3, t4] := by
    simp only [checksumTokens_eq_some, hpair]
    exact ⟨t0, t1, t2, t3, t4, h0, h1, h2, h3, h4, rfl⟩
  have hvalue : hex8 (rawTag g) = some n := (hex8_rawTag_congr fun k hk _ _ => h k hk).trans hn
  simp [decodeFrame_eq, hhead, hhead', htail, htail', hpair, h0, hsent, htokens, hvalue, computedChecksum_eq]

end Sys2Proof.Machine
end

section
/-! PROOF. The hex fields: the digits, their pairs and strings, and what a changed digit does. -/

namespace Sys2Proof.Proofs

open Sys2Proof Sys2Proof.Machine

/-- Settles O43: the byte lies outside the markers and the checksum field, so the checks before and beside its own read what they
read before. -/
theorem oneChangedByteFallsIntoThreeCases : Obligations.OneChangedByteFallsIntoThreeCases := by
  intro f r k hk b hf hlo hhi _
  obtain ⟨-, hhead, htail, t0, t1, t2, t3, t4, n, h0, h1, h2, h3, h4, hsent, -, -⟩ := decodeFrame_ok hf
  have hsame (j : Nat) (hj : j < 14) (hne : k ≠ j) : (f.set k b hk)[j] = f[j] := Vector.getElem_set_ne hk hj hne
  have hdigit : hexval (f.set k b hk)[k] = hexval b := congrArg hexval (Vector.getElem_set_self hk)
  have hhead' : headByte (f.set k b hk) = headByte f := hsame 0 (by decide) (by omega)
  have htail' : tailByte (f.set k b hk) = tailByte f := hsame 13 (by decide) (by omega)
  have hsent' : hex2 (f.set k b hk)[11] (f.set k b hk)[12] = hex2 f[11] f[12] := by
    rw [hsame 11 (by decide) (by omega), hsame 12 (by decide) (by omega)]
  refine ⟨fun d hd hne => ?value, fun hnone => ⟨fun h2 => ?version, fun h3 => ?tag⟩, fun heq => ?letterCase⟩
  case value =>
    have htokens : checksumTokens f = some #v[t0, t1, t2, t3, t4] :=
      checksumTokens_eq_some.2 ⟨t0, t1, t2, t3, t4, h0, h1, h2, h3, h4, rfl⟩
    obtain ⟨t', ht', hne'⟩ := checksumTokens_set_of_other_digit htokens hk hlo hhi hd hne
    obtain ⟨version, -, -, -, -, hversion, -⟩ := checksumTokens_eq_some.1 ht'
    exact ⟨_, _, hsent, hne', decodeFrame_of_wrong_checksum (hhead'.trans hhead) (htail'.trans htail) hversion
      (hsent'.trans hsent) ht' hne'⟩
  case version =>
    refine ⟨_, _, decodeFrame_of_bad_version (hhead'.trans hhead) (htail'.trans htail) (hex2_eq_none.2 ?_)⟩
    obtain rfl | rfl : k = 1 ∨ k = 2 := by omega
    · exact .inl (hdigit.trans hnone)
    · exact .inr (hdigit.trans hnone)
  case tag =>
    have hversion : hex2 (f.set k b hk)[1] (f.set k b hk)[2] = hex2 f[1] f[2] := by
      rw [hsame 1 (by decide) (by omega), hsame 2 (by decide) (by omega)]
    exact ⟨_, decodeFrame_of_bad_tag (hhead'.trans hhead) (htail'.trans htail) (hversion.trans h0) (hsent'.trans hsent)
      (checksumTokens_eq_none_of_tag hk h3 hhi (hdigit.trans hnone))⟩
  case letterCase =>
    refine decodeFrame_ok_congr hf hhead' htail' fun j hj => ?_
    by_cases hkj : k = j
    · subst hkj
      exact hdigit.trans heq
    · rw [hsame j hj hkj]

/-- Settles O35: the string's digits are the given ones, and the number they stand for is the weighted sum. -/
theorem eightDigitsAreTheirWeightedSum : Obligations.EightDigitsAreTheirWeightedSum := by
  refine fun s => ⟨fun ⟨k, hk⟩ => hex8_eq_none.2 ⟨s[k.val], by simp, hk⟩, fun d hd => ?_⟩
  have hdigits := hexDigits_toList hd
  have hvalue : hex8 s = some (BitVec.ofNat 32 (hexNumber (List.ofFn d))) := by rw [hex8, hdigits]; rfl
  exact ⟨_, hvalue, (hex8_toNat hdigits hvalue).trans (hexNumber_ofFn d)⟩

/-- Settles O39: tags of the same digit values have the same number, which is all that the rendering is made of. -/
theorem formattedTagIgnoresLetterCase : Obligations.FormattedTagIgnoresLetterCase := by
  intro f g r q hf hg h
  obtain ⟨-, -, -, _, _, _, _, _, n, -, -, -, -, -, -, hn, rfl⟩ := decodeFrame_ok hf
  obtain ⟨-, -, -, _, _, _, _, _, m, -, -, -, -, -, -, hm, rfl⟩ := decodeFrame_ok hg
  obtain rfl : n = m := Option.some.inj (hn.symm.trans ((hex8_rawTag_congr h).trans hm))
  exact ⟨rfl, fun k hk => ⟨getElem_rawTag f k hk, getElem_rawTag g k hk⟩⟩

/-- Settles O33: each value below 16 has the codes that the three ranges give it, and each listed code has its value. -/
theorem hexDigitsAreTheTwentyTwoCodes : Obligations.HexDigitsAreTheTwentyTwoCodes := by
  intro b v
  constructor
  case mp =>
    intro h
    have hranges := hexval_eq_some.1 h
    have hv := hexval_lt h
    interval_cases v <;> simp [← BitVec.toNat_inj] <;> omega
  case mpr =>
    intro h
    refine (?_ : ∀ p ∈ (_ : List (Byte × Nat)), hexval p.1 = some p.2) (b, v) h
    decide

/-- Settles O34: two digits below 16 make a number below 256. -/
theorem hexPairIsSixteenTimesTheFirstPlusTheSecond : Obligations.HexPairIsSixteenTimesTheFirstPlusTheSecond := by
  refine fun hi lo => ⟨hex2_eq_none.2, fun h l hh hl => ?_⟩
  have hpair : hex2 hi lo = some (BitVec.ofNat 8 (16 * h + l)) := hex2_eq_some.2 ⟨h, l, hh, hl, rfl⟩
  exact ⟨_, hpair, hex2_toNat hh hl hpair⟩

end Sys2Proof.Proofs
end

section
/-! PROOF. Step 5 of the pipeline cannot fail after step 4 (R194). -/

namespace Sys2Proof.Machine

/-- R190: step 5 renders the number that the tag's eight digits stand for. -/
theorem formatTag_of_hex8 {raw : Vector Byte 8} {n : BitVec 32} (h : hex8 raw = some n) : formatTag raw = .ok (dec10 n) := by
  rw [formatTag, h]

end Sys2Proof.Machine

namespace Sys2Proof.Proofs

open Sys2Proof Sys2Proof.Machine

/-- Settles O40: the last four tokens are the tag's eight digits, so the tag has a number to render. -/
theorem canonicalizationNeverFails : Obligations.CanonicalizationNeverFails := by
  intro f t htokens
  obtain ⟨n, hn⟩ := hex8_rawTag_of_checksumTokens htokens
  exact ⟨dec10 n, formatTag_of_hex8 hn⟩

end Sys2Proof.Proofs
end

section
/-! PROOF. The ten digits of `dec10` and the number they write (R191, R192). -/

namespace Sys2Proof.Machine

theorem decimalDigit_lt (v k : Nat) : decimalDigit v k < 10 := Nat.mod_lt _ (by decide)

theorem dec10_toNat (v : BitVec 32) (k : Nat) (h : k < 10) : ((dec10 v)[k]).toNat = 0x30 + decimalDigit v.toNat k := by
  have hlt := decimalDigit_lt v.toNat k
  rw [dec10, Vector.getElem_ofFn, BitVec.toNat_ofNat]
  exact Nat.mod_eq_of_lt (by simp only; omega)

/-- The `n` lowest decimal digits of a number write its remainder by `10 ^ n`. -/
theorem sum_low_decimal_digits (v n : Nat) : ∑ i ∈ Finset.range n, v / 10 ^ i % 10 * 10 ^ i = v % 10 ^ n := by
  induction n with
  | zero => simp [Nat.mod_one]
  | succ n ih => rw [Finset.sum_range_succ, ih, Nat.mod_pow_succ, Nat.mul_comm (10 ^ n)]

/-- The ten digits, most significant first, write the value, if it has no more than ten. -/
theorem sum_decimalDigit {v : Nat} (h : v < 10 ^ 10) : ∑ k : Fin 10, decimalDigit v k * 10 ^ (9 - k.val) = v := by
  calc ∑ k : Fin 10, decimalDigit v k * 10 ^ (9 - k.val)
      = ∑ k ∈ Finset.range 10, v / 10 ^ (10 - 1 - k) % 10 * 10 ^ (10 - 1 - k) :=
        Fin.sum_univ_eq_sum_range (fun k => decimalDigit v k * 10 ^ (9 - k)) 10
    _ = ∑ i ∈ Finset.range 10, v / 10 ^ i % 10 * 10 ^ i :=
        Finset.sum_range_reflect (fun i => v / 10 ^ i % 10 * 10 ^ i) 10
    _ = v % 10 ^ 10 := sum_low_decimal_digits v 10
    _ = v := Nat.mod_eq_of_lt h

end Sys2Proof.Machine

namespace Sys2Proof.Proofs

open Sys2Proof Sys2Proof.Machine

/-- Settles O36: a byte holds 0x30 plus a digit without overflow. -/
theorem decimalDigitsByDivision : Obligations.DecimalDigitsByDivision :=
  dec10_toNat

/-- Settles O37: a 32-bit value lies below 10 ^ 10, so it has no more than ten digits, and below 5 * 10 ^ 9, so the first is
at most 4. -/
theorem tenDecimalDigitsGiveTheValueBack : Obligations.TenDecimalDigitsGiveTheValueBack := by
  intro v
  have hv : v.toNat < 2 ^ 32 := v.isLt
  refine ⟨?sum, fun k => dec10_digit v k k.isLt, ?first⟩
  case sum => simpa [dec10_toNat] using sum_decimalDigit (v := v.toNat) (by omega)
  case first =>
    rw [dec10_toNat, decimalDigit]
    omega

end Sys2Proof.Proofs
end

section
/-! SUPPORT. The reset step, which reads nothing of the event presented with it, and the phase ENDED, which no instruction leaves
(R101, R240). -/

namespace Sys2Proof.Machine

variable {s t : State}

theorem step_of_reset {w : EventWord} {rest : List Input} (h : s.inputs = .event true w :: rest) :
    step s = .next (takeReset { s with inputs := rest }) := by
  have hfetch : fetch s = none := fetch_eq_none_iff.2 ⟨w, rest, h⟩
  rw [step, hfetch, consume_of_inputs_cons h]

theorem exec_keeps_ended {i : Instr} (hp : s.phase = .ended) (h : exec i s = .next t) : t.phase = .ended := by
  obtain ⟨d', hstay⟩ := exec_ended hp i
  rw [hstay, Host.Outcome.next.injEq] at h
  rw [← h]
  exact hp

end Sys2Proof.Machine
end

section
/-! PROOF. The reset step overrides the event presented with it (R240). -/

namespace Sys2Proof.Proofs

open Sys2Proof Sys2Proof.Machine

/-- Settles O9: the state after a reset step is made without the event word, and only such a step leaves ENDED. -/
theorem resetStepOverridesTheEvent : Obligations.ResetStepOverridesTheEvent :=
  ⟨fun _ _ _ h => ⟨_, step_of_reset h, rfl, rfl, rfl, rfl, fun _ => step_of_reset rfl⟩, fun _ _ _ => exec_keeps_ended⟩

end Sys2Proof.Proofs
end

section
/-! SUPPORT. Which byte strings decode, and to what (log entry 3): the port's word that a well-formed string lays out, and the
name under which every other string is rejected. -/

namespace Sys2Proof

variable {bs : List Byte}

/-! ## From the port's word to the instruction -/

theorem decodeBytes_of_error {e : Rejection} (h : portWordOfBytes bs = .error e) : decodeBytes bs = .error e := by
  rw [decodeBytes, h]

theorem decodeBytes_eq_ok {i : Instr} : decodeBytes bs = .ok i ↔ ∃ p, portWordOfBytes bs = .ok p ∧ decodePort p = i := by
  cases h : portWordOfBytes bs with
  | ok p => simp [decodeBytes_of_portWordOfBytes h]
  | error e => simp [decodeBytes_of_error h]

/-! ## The strings that decode -/

theorem lengthWellFormed_iff : lengthWellFormed bs = true ↔ bs.length = 2 ∨ bs.length = 15 := by
  simp [lengthWellFormed, eventBytes, requestBytes]

/-- A well-formed string is an event word in two bytes, or a request in fifteen. -/
theorem bytesWellFormed_cases (h : bytesWellFormed bs = true) :
    (∃ lo hi : Byte, bs = [lo, hi] ∧ hi.extractLsb' 2 6 = 0) ∨ ∃ len frame, bs = len :: frame ∧ frame.length = 14 := by
  obtain ⟨hlen, hbits⟩ := Bool.and_eq_true_iff.1 h
  obtain h2 | h15 := lengthWellFormed_iff.1 hlen
  · obtain ⟨lo, hi, rfl⟩ := List.length_eq_two.1 h2
    exact .inl ⟨lo, hi, rfl, by simpa [eventBitsWellFormed] using hbits⟩
  · obtain ⟨len, frame, rfl⟩ := List.exists_cons_of_length_eq_add_one h15
    exact .inr ⟨len, frame, rfl, by simpa using h15⟩

theorem exists_portWordOfBytes (h : bytesWellFormed bs = true) : ∃ p, portWordOfBytes bs = .ok p := by
  obtain ⟨lo, hi, rfl, hbits⟩ | ⟨len, frame, rfl, hlen⟩ := bytesWellFormed_cases h
  · exact ⟨_, portWordOfBytes_event hbits⟩
  · exact ⟨_, portWordOfBytes_request len hlen⟩

theorem bytesWellFormed_encodeBytes : ∀ i : Instr, bytesWellFormed (encodeBytes i) = true
  | .idle data => Laws.EncodedWellFormed.idle data
  | .byte data => Laws.EncodedWellFormed.byte data
  | .timeout data => Laws.EncodedWellFormed.timeout data
  | .eos data => Laws.EncodedWellFormed.eos data
  | .decode len frame => Laws.EncodedWellFormed.decode len frame

/-! ## The strings that are rejected -/

theorem portWordOfBytes_bitsAboveEventWord {lo hi : Byte} (h : hi.extractLsb' 2 6 ≠ 0) :
    portWordOfBytes [lo, hi] = .error (.bitsAboveEventWord hi) :=
  if_neg h

theorem portWordOfBytes_wrongLength : ∀ {bs : List Byte}, lengthWellFormed bs = false →
    portWordOfBytes bs = .error (.wrongLength bs.length)
  | [], _ => rfl
  | [_], _ => rfl
  | [_, _], h => nomatch h
  | _ :: _ :: _ :: _, h => if_neg fun h14 =>
    Bool.false_ne_true (h.symm.trans (lengthWellFormed_iff.2 (.inr (congrArg (· + 1) h14))))

/-! ## Back to the bytes -/

/-- Nothing of a second byte without high bits is lost with them (R60). -/
theorem setWidth_extractLsb'_of_highBits {hi : Byte} (h : hi.extractLsb' 2 6 = 0) : (hi.extractLsb' 0 2).setWidth 8 = hi := by
  have happend : hi.extractLsb' 2 6 ++ hi.extractLsb' 0 2 = hi := BitVec.extractLsb'_append_extractLsb' (len := 2) (w := 6)
  rw [h] at happend
  exact (BitVec.setWidth_eq_append (by omega)).trans happend

theorem toBytes_event {lo hi : Byte} (h : hi.extractLsb' 2 6 = 0) :
    (PortWord.event (hi.extractLsb' 0 2 ++ lo)).toBytes = [lo, hi] := by
  have hlow : (hi.extractLsb' 0 2 ++ lo).extractLsb' 0 8 = lo := BitVec.extractLsb'_append_eq_right
  have hkind : (hi.extractLsb' 0 2 ++ lo).extractLsb' 8 2 = hi.extractLsb' 0 2 := BitVec.extractLsb'_append_eq_left
  rw [PortWord.toBytes, hlow, hkind, setWidth_extractLsb'_of_highBits h]

theorem toBytes_request (len : Byte) {frame : List Byte} (h : frame.length = 14) :
    (PortWord.request ⟨len, packBytes 112 frame⟩).toBytes = len :: frame := by
  obtain ⟨f, rfl⟩ : ∃ f : RawFrame, f.toList = frame := ⟨⟨frame.toArray, h⟩, rfl⟩
  rw [PortWord.toBytes, unpackFrame_packBytes]

/-- A string that lays out a port's word is the one string that does. -/
theorem toBytes_of_portWordOfBytes {p : PortWord} (h : portWordOfBytes bs = .ok p) : p.toBytes = bs := by
  unfold portWordOfBytes at h
  split at h
  case h_1 => cases h
  case h_2 lo hi =>
    split at h
    case isTrue hbits => cases h; exact toBytes_event hbits
    case isFalse => cases h
  case h_3 len frame _ =>
    split at h
    case isTrue hlen => cases h; exact toBytes_request len hlen
    case isFalse => cases h

theorem encodeBytes_of_decodeBytes {i : Instr} (h : decodeBytes bs = .ok i) : encodeBytes i = bs := by
  obtain ⟨p, hp, rfl⟩ := decodeBytes_eq_ok.1 h
  rw [encodeBytes, encode_decodePort, toBytes_of_portWordOfBytes hp]

theorem bytesWellFormed_iff_decodes : bytesWellFormed bs = true ↔ ∃ i, decodeBytes bs = .ok i := by
  constructor
  case mp =>
    intro h
    obtain ⟨p, hp⟩ := exists_portWordOfBytes h
    exact ⟨decodePort p, decodeBytes_of_portWordOfBytes hp⟩
  case mpr =>
    rintro ⟨i, hi⟩
    rw [← encodeBytes_of_decodeBytes hi]
    exact bytesWellFormed_encodeBytes i

end Sys2Proof
end

section
/-! SUPPORT. One step of a system: it replaces one block, and reads no other (R53, R223; the list of blocks is log entry 10). -/

namespace Sys2Proof.Machine

variable {sys a : System} {k : Nat}

theorem stepAt_of_step {s t : State} (hs : sys.blocks[k]? = some s) (ht : step s = .next t) :
    sys.stepAt k = .next ⟨sys.blocks.set k t⟩ := by
  simp only [System.stepAt, hs, ht]

/-- A number that names no instance replaces nothing. -/
theorem stepAt_of_no_block (h : sys.blocks[k]? = none) (t : State) : sys.stepAt k = .next ⟨sys.blocks.set k t⟩ := by
  rw [List.set_eq_of_length_le (List.getElem?_eq_none_iff.1 h)]
  simp only [System.stepAt, h]

/-- A step at `k` puts one state at `k`, the same in every system that has the same block there. -/
theorem stepAt_eq_next (h : sys.stepAt k = .next a) :
    ∃ t, a = ⟨sys.blocks.set k t⟩ ∧
      ∀ sys' : System, sys'.blocks[k]? = sys.blocks[k]? → sys'.stepAt k = .next ⟨sys'.blocks.set k t⟩ := by
  cases hs : sys.blocks[k]? with
  | none =>
    have hset := stepAt_of_no_block hs State.reset
    exact ⟨State.reset, Host.Outcome.next.inj (h.symm.trans hset), fun _ hs' => stepAt_of_no_block hs' _⟩
  | some s =>
    cases ht : step s with
    | next t =>
      have hset := stepAt_of_step hs ht
      exact ⟨t, Host.Outcome.next.inj (h.symm.trans hset), fun _ hs' => stepAt_of_step hs' ht⟩
    | fault => simp [System.stepAt, hs, ht] at h
    | refused => simp [System.stepAt, hs, ht] at h

end Sys2Proof.Machine
end

section
/-! SUPPORT. The launch state meets the invariant (R22, R28, R32), and the one way a BYTE stops (log entry 5). -/

namespace Sys2Proof.Machine

theorem reset_inv : State.reset.Inv := .of_phase_ne_asm reset_fb_wf (by decide) rfl

theorem exec_byte_excluded {s : State} (hp : s.phase = .asm) (hc : 12 < s.cnt.toNat) (b : Byte) :
    exec (.byte b) s = .fault (.fbOffsetOutOfRange (1 + s.cnt.toNat)) := by
  have hlt : ¬s.cnt.toNat < 12 := by omega
  have hne : s.cnt.toNat ≠ 12 := by omega
  simp only [exec, execByte, hp, if_neg hlt, if_neg hne]

end Sys2Proof.Machine
end

section
/-! PROOF. The byte strings that decode, the launch state, the phase codes, the stop at an excluded count, and the independence of
the instances. -/

namespace Sys2Proof.Proofs

open Sys2Proof Sys2Proof.Machine

/-- Settles O2: the string gives a port's word, and that word, which the instruction encodes to, lays out no other string. -/
theorem decodedBytesEncodeBack : Obligations.DecodedBytesEncodeBack :=
  fun _ _ => encodeBytes_of_decodeBytes

/-- Settles O3: a well-formed string has the shape of a format, and a string that decodes is an encoding, which is well formed. -/
theorem bytesDecodeExactlyWhenWellFormed : Obligations.BytesDecodeExactlyWhenWellFormed := by
  refine fun bs => ⟨bytesWellFormed_iff_decodes, fun h => decodeBytes_of_error (portWordOfBytes_wrongLength h), ?bits⟩
  case bits =>
    rintro lo hi rfl h
    exact decodeBytes_of_error (portWordOfBytes_bitsAboveEventWord h)

/-- Settles O60: each step finds its block as it was before the other, and writes to two different places of a list commute. -/
theorem instanceStepsCommute : Obligations.InstanceStepsCommute := by
  intro sys a b j k hne ha hb
  obtain ⟨t, rfl, hj⟩ := stepAt_eq_next ha
  obtain ⟨u, rfl, hk⟩ := stepAt_eq_next hb
  have hkj := hk ⟨sys.blocks.set j t⟩ (List.getElem?_set_ne hne)
  have hjk := hj ⟨sys.blocks.set k u⟩ (List.getElem?_set_ne hne.symm)
  exact ⟨_, hkj, by rw [hjk, List.set_comm _ _ hne]⟩

/-- Settles O10, from the launch state's fields and what a reset step sets. -/
theorem launchStateIsPostReset : Obligations.LaunchStateIsPostReset :=
  ⟨⟨rfl, rfl, Memory.read_empty, rfl, rfl, rfl⟩, fun _ _ _ h => ⟨_, step_of_reset h, Memory.read_empty, rfl, rfl⟩⟩

/-- Settles O12: neither the rule for a payload byte nor the rule for the last byte applies. -/
theorem excludedCountStopsAByte : Obligations.ExcludedCountStopsAByte :=
  fun _ b hp hc => exec_byte_excluded hp hc b

/-- Settles O29, phase by phase. -/
theorem phaseCodesAreThree : Obligations.PhaseCodesAreThree := by
  refine ⟨rfl, rfl, rfl, fun p => ?_⟩
  cases p <;> decide

/-- Settles O46: the buffer is empty and no assembly is under way. -/
theorem launchStateMeetsTheInvariant : Obligations.LaunchStateMeetsTheInvariant :=
  reset_inv

/-- Settles O59: the step writes one place of the list. -/
theorem instancesShareNoState : Obligations.InstancesShareNoState := by
  intro sys k s t hs ht
  obtain ⟨hk, -⟩ := List.getElem?_eq_some_iff.1 hs
  exact ⟨_, stepAt_of_step hs ht, List.getElem?_set_self hk, List.length_set, fun j hj => List.getElem?_set_ne hj.symm⟩

end Sys2Proof.Proofs
end
